-- ==== Sys2Proof/Word.lean ====
section
/-! DEFINITION. The widths the spec gives values, under the spec's own names (00_scope.md R5, R6). Every value is unsigned. -/

namespace Sys2Proof

/-- CMD_W = REG_W = 32: a command word or a host register (00_scope.md R5). -/
abbrev Word := BitVec 32

/-- ELEM_W = 8: a field element, a buffer entry, a ROM entry, a buffer index (00_scope.md R5, 20_memory.md R44). -/
abbrev Byte := BitVec 8

/-- The nine-bit fields N and I (30_encoding.md R62). -/
abbrev Count := BitVec 9

end Sys2Proof
end

