-- ==== Sys2Proof/Syntax.lean ====
section
/-! DEFINITION. The fourteen commands of 30_encoding.md R65, one constructor per row, operands as 30_encoding.md R64 names them. -/

namespace Sys2Proof

/-- A command with its operands (30_encoding.md R62 to R65). Every operand is an unsigned field of the command word. -/
inductive Instr where
  | nop
  | add (a b : Byte)
  | sub (a b : Byte)
  | mul (a b : Byte)
  | div (a b : Byte)
  | log (a : Byte)
  | alog (i : Count)
  | wcoef (idx d : Byte)
  | wpt (idx x y : Byte)
  | rcoef (idx : Byte)
  | rpx (idx : Byte)
  | rpy (idx : Byte)
  | eval (x : Byte) (n : Count)
  | interp (n : Count)
  deriving DecidableEq, Repr

end Sys2Proof
end

