-- ==== Sys2Proof/Decode.lean ====
section
/-! DEFINITION. The decoder of 30_encoding.md R60 to R68, total on any word and any bytes, and after it the encoder. -/

namespace Sys2Proof

/-- `w[hi:lo]` for a field of `width` bits from bit `lo` on (00_scope.md R6). -/
def fieldAt (w : Word) (lo width : Nat) : BitVec width := w.extractLsb' lo width

/-- OP = w[3:0] (30_encoding.md R61). -/
def opOf (w : Word) : BitVec 4 := fieldAt w 0 4

/-- RSV = w[7:4] (30_encoding.md R61). -/
def rsvOf (w : Word) : BitVec 4 := fieldAt w 4 4

/-- F1 = w[15:8]: A, X or D (30_encoding.md R62, R64). -/
def f1Of (w : Word) : Byte := fieldAt w 8 8

/-- F2 = w[23:16]: B or Y (30_encoding.md R62, R64). -/
def f2Of (w : Word) : Byte := fieldAt w 16 8

/-- F3 = w[31:24]: IDX (30_encoding.md R62, R64). -/
def f3Of (w : Word) : Byte := fieldAt w 24 8

/-- NF = w[24:16]: N or I (30_encoding.md R62, R64). -/
def nfOf (w : Word) : Count := fieldAt w 16 9

/-- A row of the opcode map of 30_encoding.md R65: the match and mask a decoder tests, and how the row's operands are
taken from the word (R64). -/
structure OpRow where
  pattern : Word
  mask : Word
  operands : Word → Instr

/-- "a word w is that command when (w & mask) = match" (30_encoding.md R65). -/
def OpRow.admits (r : OpRow) (w : Word) : Bool := (w &&& r.mask) == r.pattern

/-- The opcode map of 30_encoding.md R65, in its order. -/
def opRows : List OpRow :=
  [ { pattern := 0x00000000, mask := 0xFFFFFFFF, operands := fun _ => .nop },
    { pattern := 0x00000001, mask := 0xFF0000FF, operands := fun w => .add (f1Of w) (f2Of w) },
    { pattern := 0x00000002, mask := 0xFF0000FF, operands := fun w => .sub (f1Of w) (f2Of w) },
    { pattern := 0x00000003, mask := 0xFF0000FF, operands := fun w => .mul (f1Of w) (f2Of w) },
    { pattern := 0x00000004, mask := 0xFF0000FF, operands := fun w => .div (f1Of w) (f2Of w) },
    { pattern := 0x00000005, mask := 0xFFFF00FF, operands := fun w => .log (f1Of w) },
    { pattern := 0x00000006, mask := 0xFE00FFFF, operands := fun w => .alog (nfOf w) },
    { pattern := 0x00000007, mask := 0x00FF00FF, operands := fun w => .wcoef (f3Of w) (f1Of w) },
    { pattern := 0x00000008, mask := 0x000000FF, operands := fun w => .wpt (f3Of w) (f1Of w) (f2Of w) },
    { pattern := 0x00000009, mask := 0x00FFFFFF, operands := fun w => .rcoef (f3Of w) },
    { pattern := 0x0000000A, mask := 0x00FFFFFF, operands := fun w => .rpx (f3Of w) },
    { pattern := 0x0000000B, mask := 0x00FFFFFF, operands := fun w => .rpy (f3Of w) },
    { pattern := 0x0000000C, mask := 0xFE0000FF, operands := fun w => .eval (f1Of w) (nfOf w) },
    { pattern := 0x0000000D, mask := 0xFE00FFFF, operands := fun w => .interp (nfOf w) } ]

/-- Why a word is no command: the three cases of 30_encoding.md R66, and a byte sequence with no whole word in it.
The block reports all three cases of R66 as ILLEGAL_CMD (log entry 23). -/
inductive Reject where
  /-- OP is 0xE or 0xF. -/
  | reservedOp
  /-- RSV is not 0. -/
  | nonzeroRsv
  /-- A bit the format reserves is not 0. -/
  | reservedBit
  /-- Fewer than four bytes: never the case of a CMD write, which is one 32-bit word (30_encoding.md R60). -/
  | truncated
  deriving DecidableEq, Repr

/-- Which case of 30_encoding.md R66 a word that matches no row falls under, in the order R66 lists them. -/
def rejectReason (w : Word) : Reject :=
  if 0xE ≤ (opOf w).toNat then .reservedOp
  else if rsvOf w = 0 then .reservedBit
  else .nonzeroRsv

/-- The decoder: the row that admits the word, or the reason there is none (30_encoding.md R65, R66, R68). -/
def decode (w : Word) : Except Reject Instr :=
  match opRows.find? (fun r => r.admits w) with
  | some r => .ok (r.operands w)
  | none => .error (rejectReason w)

/-- `zext_32(v)` moved up to bit `lo` (00_scope.md R6). -/
def placeAt {n : Nat} (lo : Nat) (v : BitVec n) : Word := v.zeroExtend 32 <<< lo

/-- The word four bytes carry: byte k is bits [8k+7:8k] (20_memory.md R43). -/
def wordOfBytes (b0 b1 b2 b3 : Byte) : Word := placeAt 0 b0 ||| placeAt 8 b1 ||| placeAt 16 b2 ||| placeAt 24 b3

/-- The byte on lane k of a word (20_memory.md R43). -/
def byteLane (w : Word) (k : Nat) : Byte := fieldAt w (8 * k) 8

/-- The four bytes of a word, the lowest address first (20_memory.md R43). -/
def bytesOfWord (w : Word) : List Byte := [byteLane w 0, byteLane w 1, byteLane w 2, byteLane w 3]

/-- The decoder on bytes, lowest address first: the command and the bytes after it. -/
def decodeBytes : List Byte → Except Reject (Instr × List Byte)
  | b0 :: b1 :: b2 :: b3 :: rest =>
    match decode (wordOfBytes b0 b1 b2 b3) with
    | .ok i => .ok (i, rest)
    | .error e => .error e
  | [] | [_] | [_, _] | [_, _, _] => .error .truncated

/-- A word from OP and its byte fields F1, F2 and F3, RSV being 0 (30_encoding.md R61, R62, R69: `OP | a<<8 | b<<16`). -/
def fieldsWord (op : BitVec 4) (f1 f2 f3 : Byte) : Word :=
  placeAt 0 op ||| placeAt 8 f1 ||| placeAt 16 f2 ||| placeAt 24 f3

/-- A word from OP, F1 and the nine-bit field NF = w[24:16], bits 31:25 being 0 (30_encoding.md R62, R63, R69). -/
def countWord (op : BitVec 4) (f1 : Byte) (nf : Count) : Word := placeAt 0 op ||| placeAt 8 f1 ||| placeAt 16 nf

/-- The encoder: the word of a command, from the formats of 30_encoding.md R63 and the opcodes of R65. -/
def encode : Instr → Word
  | .nop => fieldsWord 0x0 0 0 0
  | .add a b => fieldsWord 0x1 a b 0
  | .sub a b => fieldsWord 0x2 a b 0
  | .mul a b => fieldsWord 0x3 a b 0
  | .div a b => fieldsWord 0x4 a b 0
  | .log a => fieldsWord 0x5 a 0 0
  | .alog i => countWord 0x6 0 i
  | .wcoef idx d => fieldsWord 0x7 d 0 idx
  | .wpt idx x y => fieldsWord 0x8 x y idx
  | .rcoef idx => fieldsWord 0x9 0 0 idx
  | .rpx idx => fieldsWord 0xA 0 0 idx
  | .rpy idx => fieldsWord 0xB 0 0 idx
  | .eval x n => countWord 0xC x n
  | .interp n => countWord 0xD 0 n

/-- The bytes of a command as a byte-addressed host bus carries them (20_memory.md R43). -/
def encodeBytes (i : Instr) : List Byte := bytesOfWord (encode i)

/-- What the decoder reads from a command whose bits are `w`, bits above `nbits` zero, laid out as bytes (the host's
question about one row of spec/opcode_table.json). -/
def decodeTableWord (nbits w : Nat) : Option Instr :=
  match decodeBytes (bytesOfWord (BitVec.ofNat 32 (w % 2 ^ nbits))) with
  | .ok (i, _) => some i
  | .error _ => none

end Sys2Proof
end

