-- ==== Sys2Proof/Config.lean ====
section
/-! DEFINITION. The parameters of 00_scope.md R5, and the free values: constants with no body, for what the spec leaves open. -/

namespace Sys2Proof.Config

/-- FIELD_POLY, x^8 + x^4 + x^3 + x + 1 (00_scope.md R2, R5). -/
abbrev fieldPoly : BitVec 16 := 0x11B

/-- GEN, the generator of the multiplicative group (00_scope.md R2, R5). -/
abbrev gen : Byte := 0x03

/-- LOG0, the sentinel of LOG[0], fixed at 0xFF by the spec (00_scope.md R5, D11; log entry 15). -/
abbrev log0 : Byte := 0xFF

/-- ALOG_DEPTH, entries 0..509 (00_scope.md R5, D10). -/
abbrev alogDepth : Nat := 510

/-- BUF_DEPTH, entries of each of COEF, PX and PY (00_scope.md R5, D14). -/
abbrev bufDepth : Nat := 256

/-- N_MAX, the largest legal count (00_scope.md R5, D15). -/
abbrev nMax : Nat := 256

/-- FREE VALUE. Where the platform places the register window, in units of 16 bytes (20_memory.md R40: BASE is OPEN).
DESIGN CHOICE, log entry 8, safe: nothing can evaluate it. -/
opaque basePage : Nat

/-- BASE, a multiple of 16 placed by the platform (20_memory.md R40). -/
def base : Nat := 16 * basePage

/-- The three operand buffers (10_state.md R25, R26). -/
inductive BufId where
  | coef
  | px
  | py
  deriving DecidableEq, Repr

/-- Which read of the pseudocode reads a buffer entry, so that two reads of one unwritten entry need not agree
(42_buffers.md R116). `only` is a command that reads an entry once; the others are the reads of 44_interp.md R130. -/
inductive ReadSite where
  | only
  | zeroCheck
  | pairLeft (j : Nat)
  | pairRight (i : Nat)
  | numerator (i : Nat)
  | minuend (j : Nat)
  | subtrahend (i : Nat)
  | weight
  deriving DecidableEq, Repr

/-- FREE VALUE. What the read at `site` of the unwritten entry `index` of buffer `buf` finds, in the command that draw
number `draw` belongs to (42_buffers.md R116: "The value read is not specified, and two reads of one unwritten entry need
not agree"). DESIGN CHOICE, log entry 4, safe. -/
opaque unwritten (draw : Nat) (buf : BufId) (index : Nat) (site : ReadSite) : Byte

/-- FREE VALUE. What draw number `draw` gives to a read of RESULT while BUSY = 1 (70_reset_and_hazards.md R176).
DESIGN CHOICE, log entry 3, safe. -/
opaque busyResult (draw : Nat) : Word

end Sys2Proof.Config
end

