-- ==== Sys2Proof/Machine/State.lean ====
section
/-! DEFINITION. What the machine holds (10_state.md R22 to R34), the ghost record of 60_exceptions.md R151, the
environment's agenda, and the machine right after reset (70_reset_and_hazards.md R170). Plain data. -/

namespace Sys2Proof.Machine

/-- The five fault codes of 60_exceptions.md R140. Codes 6 to 15 are never produced. -/
inductive FaultCode where
  | illegalCmd
  | badLen
  | romRange
  | xZero
  | divZero
  deriving DecidableEq, Repr

/-- What the ghost record of 60_exceptions.md R151 holds. -/
inductive Recorded where
  /-- A command raised this code (60_exceptions.md R142). -/
  | fault (c : FaultCode)
  /-- UNINIT_READ: a command read a buffer entry not written since reset (42_buffers.md R116). -/
  | uninitRead
  /-- A host access was refused (20_memory.md R42). -/
  | refusedAccess
  deriving DecidableEq, Repr

/-- A host access is a read, or a write of a 32-bit value (00_scope.md R7). -/
inductive Transfer where
  | read
  | write (v : Word)
  deriving DecidableEq, Repr

/-- A host access: where it starts, how many bytes each beat carries, and how many beats there are (20_memory.md R42
speaks of width, alignment and bursts). A legal access has `bytes = 4` and `beats = 1`. -/
structure Access where
  transfer : Transfer
  addr : Nat
  bytes : Nat
  beats : Nat
  deriving DecidableEq, Repr

/-- Which agent moves in a step (20_memory.md R48): the host with one access, the block with its completion step
(10_state.md R35), or the platform with a reset (70_reset_and_hazards.md R170). -/
inductive Turn where
  | host (a : Access)
  | block
  | reset
  deriving DecidableEq, Repr

/-- The state of one GF256-CORE instance (10_state.md R22). A buffer is a list of its written entries, indexes strictly
rising; an index that is not listed has not been written since reset (42_buffers.md R116). -/
structure State where
  /-- COEF (10_state.md R25). -/
  coef : List Host.Cell
  /-- PX (10_state.md R26). -/
  px : List Host.Cell
  /-- PY (10_state.md R26). -/
  py : List Host.Cell
  /-- RES, the eight live bits of RESULT (10_state.md R28). -/
  result : Byte
  /-- STATUS.BUSY (10_state.md R30). -/
  busy : Bool
  /-- STATUS.FAULT (10_state.md R31). -/
  fault : Bool
  /-- STATUS.OVR (10_state.md R32). -/
  ovr : Bool
  /-- STATUS.FCODE: `none` is 0x0 (10_state.md R31, 60_exceptions.md R140). -/
  fcode : Option FaultCode
  /-- CUR, the word of the command in flight; read only while BUSY = 1 (10_state.md R34). -/
  cur : Word
  /-- Ghost: what was raised since reset, oldest first (60_exceptions.md R151). -/
  record : List Recorded
  /-- Ghost: the command words dropped while BUSY = 1 since reset, oldest first (93_implementation_defined.md U-15). -/
  lost : List Word
  /-- The model's own: the turns to come, the environment's data (log entry 1). -/
  agenda : List Turn
  /-- The model's own: what the host's last legal read returned (log entry 11). -/
  lastRead : Option Word
  /-- The model's own: how many free values have been drawn (log entry 3). -/
  draws : Nat
  deriving DecidableEq, Repr

/-- Reasons for the machine to stop with a fault: none. Every fault of the spec is state the machine goes on from
(60_exceptions.md R142), and UNINIT_READ is "a recorded fault, never final" (93_implementation_defined.md U-2). -/
inductive Fault where
  deriving DecidableEq, Repr

/-- Reasons for the machine to give no meaning to what it is asked. -/
inductive Refusal where
  /-- Raised by exec for a command whose meaning is not written yet: none is left. Safe: the run ends. -/
  | notModelled (mnemonic : String)
  /-- Raised by the register window for an access inside it that is not one naturally aligned 32-bit access
  (20_memory.md R42: "it refuses it, which errs toward unprovable"). Safe: the run ends. `record` is the ghost record
  with this refusal marked in it (60_exceptions.md R151). -/
  | illegalAccess (a : Access) (record : List Recorded)
  deriving DecidableEq, Repr

/-- The machine right after reset (70_reset_and_hazards.md R170). RESULT and STATUS have the spec's values, no buffer
entry counts as written; CUR, `agenda`, `lastRead` and `draws` have values the model chose (log entries 2, 1, 11, 3). -/
def State.reset : State where
  coef := []
  px := []
  py := []
  result := 0
  busy := false
  fault := false
  ovr := false
  fcode := none
  cur := 0
  record := []
  lost := []
  agenda := []
  lastRead := none
  draws := 0

end Sys2Proof.Machine
end

