-- ==== Sys2Proof/Machine/Flags.lean ====
section
/-! DEFINITION. The STATUS register: its fields' codes, its 32-bit read, and what sets and clears its flags
(10_state.md R29 to R33, R36). No command writes a flag as a side effect of its value. -/

namespace Sys2Proof.Machine

/-- The four-bit code of a fault (60_exceptions.md R140). -/
def FaultCode.code : FaultCode → BitVec 4
  | .illegalCmd => 0x1
  | .badLen => 0x2
  | .romRange => 0x3
  | .xZero => 0x4
  | .divZero => 0x5

/-- STATUS.FCODE as it reads: 0x0 when there is no fault (10_state.md R29). -/
def State.fcodeBits (s : State) : BitVec 4 :=
  match s.fcode with
  | none => 0x0
  | some c => c.code

/-- The 32-bit value of STATUS: BUSY, FAULT and OVR at bits 0, 1 and 2, FCODE at bits 7:4; bits 31:8 and bit 3 are
hardwired 0 (10_state.md R29). -/
def State.statusWord (s : State) : Word :=
  placeAt 0 (BitVec.ofBool s.busy) ||| placeAt 1 (BitVec.ofBool s.fault) ||| placeAt 2 (BitVec.ofBool s.ovr) |||
    placeAt 4 s.fcodeBits

/-- The 32-bit value of RESULT while BUSY = 0: zext_32(RES) (10_state.md R28). -/
def State.resultWord (s : State) : Word := s.result.zeroExtend 32

/-- FAULT <- 1 and FCODE <- c, written together (10_state.md R31). -/
def setFault (c : FaultCode) (s : State) : State := { s with fault := true, fcode := some c }

/-- FAULT <- 0, FCODE <- 0x0 and OVR <- 0, cleared together (10_state.md R33). -/
def clearFlags (s : State) : State := { s with fault := false, fcode := none, ovr := false }

/-- OVR <- 1, with the dropped word kept in ghost state (10_state.md R27, R32; 93_implementation_defined.md U-15). -/
def setOverrun (w : Word) (s : State) : State := { s with ovr := true, lost := s.lost ++ [w] }

/-- BUSY <- 1 with the accepted word in CUR (10_state.md R27, R30). -/
def setBusy (w : Word) (s : State) : State := { s with cur := w, busy := true }

/-- BUSY <- 0, at completion (10_state.md R30, R35). -/
def clearBusy (s : State) : State := { s with busy := false }

end Sys2Proof.Machine
end

