-- ==== Sys2Proof/Machine/Ops.lean ====
section
/-! DEFINITION. The shared operations: buffer cells, the completion step with its fault entry, the fault return, command
acceptance, reset, and whose turn it is. -/

namespace Sys2Proof.Machine

/-- The entry at an index, `none` where nothing was written since reset (42_buffers.md R116). -/
def Memory.read : List Host.Cell → Nat → Option Byte
  | [], _ => none
  | (j, v) :: rest, i => if i = j then some v else Memory.read rest i

/-- Entry `i` <- `v`, keeping the indexes strictly rising (00_scope.md R7). -/
def Memory.write : List Host.Cell → Nat → Byte → List Host.Cell
  | [], i, v => [(i, v)]
  | (j, u) :: rest, i, v =>
    if i < j then (i, v) :: (j, u) :: rest
    else if i = j then (i, v) :: rest
    else (j, u) :: Memory.write rest i v

/-- The indexes rise strictly from `lo` on and stay below `hi`. -/
def Memory.rising (lo hi : Nat) : List Host.Cell → Bool
  | [] => true
  | (j, _) :: rest => decide (lo ≤ j) && decide (j < hi) && Memory.rising (j + 1) hi rest

/-- The canonical form of a buffer: indexes strictly rising and below BUF_DEPTH (00_scope.md R5). An unlisted index reads
as no value, so no listed entry can equal it. -/
def Memory.wf (m : List Host.Cell) : Bool := Memory.rising 0 Config.bufDepth m

/-- The cells of a buffer. -/
def State.buffer (s : State) : Config.BufId → List Host.Cell
  | .coef => s.coef
  | .px => s.px
  | .py => s.py

/-- The model's read of one byte: an entry of a buffer, `none` if not written since reset. -/
def State.entryAt (s : State) (b : Config.BufId) (i : Nat) : Option Byte := Memory.read (s.buffer b) i

/-- COEF[i] <- v (42_buffers.md R111). -/
def writeCoef (i : Nat) (v : Byte) (s : State) : State := { s with coef := Memory.write s.coef i v }

/-- PX[i] <- x and PY[i] <- y in one step (42_buffers.md R112). -/
def writePoint (i : Nat) (x y : Byte) (s : State) : State :=
  { s with px := Memory.write s.px i x, py := Memory.write s.py i y }

/-- UNINIT_READ: a command that read an unwritten entry is recorded once, and the next command draws anew
(42_buffers.md R116, 60_exceptions.md R151; log entries 4 and 5). -/
def noteUninit (happened : Bool) (s : State) : State :=
  { s with record := s.record ++ (if happened then [.uninitRead] else []), draws := s.draws + happened.toNat }

/-- RESULT <- zext_32(v) (10_state.md R35). -/
def setResult (v : Byte) (s : State) : State := { s with result := v }

/-- Fault entry, the one way a command's fault is taken: FAULT <- 1, FCODE <- c, BUSY <- 0, nothing else of the block
(60_exceptions.md R142), and the ghost record gains the code (R151). -/
def takeFault (c : FaultCode) (s : State) : State := clearBusy { setFault c s with record := s.record ++ [.fault c] }

/-- Fault return, a CTRL write with bit 0 = 1: FAULT, FCODE and OVR are cleared and nothing is re-executed
(60_exceptions.md R146, 10_state.md R33). -/
def returnFromFault (s : State) : State := clearFlags s

/-- What Execute returns to the completion step (30_encoding.md R68). -/
inductive Result where
  | value (v : Byte)
  | noValue
  | fault (c : FaultCode)
  deriving DecidableEq, Repr

/-- The completion step of 10_state.md R35 on what Execute returned; BUSY <- 0 in every case. -/
def complete (r : Result) (s : State) : State :=
  clearBusy
    (match r with
    | .value v => setResult v s
    | .noValue => s
    | .fault c => takeFault c s)

/-- A host write of `w` to CMD, its conditions tested in the order of 10_state.md R27. -/
def writeCmd (w : Word) (s : State) : State :=
  if s.fault then s
  else if s.busy then setOverrun w s
  else setBusy w s

/-- A host write of `v` to CTRL: bit 0 is CLRF, bits 31:1 are ignored (10_state.md R33). -/
def writeCtrl (v : Word) (s : State) : State := if v.getLsbD 0 then returnFromFault s else s

/-- The platform's reset: every field of the block at its reset value, a command in flight abandoned with none of its
effects (70_reset_and_hazards.md R170). The environment's fields go on (log entry 14). -/
def resetBlock (s : State) : State :=
  { State.reset with agenda := s.agenda, lastRead := s.lastRead, draws := s.draws }

/-- Whose turn it is. When the agenda is used up the block moves, so an accepted command completes after finitely many
steps (70_reset_and_hazards.md R178; log entry 9). -/
def State.nextTurn (s : State) : Turn := s.agenda.headD .block

/-- The state with that turn taken off the agenda. -/
def State.popTurn (s : State) : State := { s with agenda := s.agenda.tail }

end Sys2Proof.Machine
end

