-- ==== Sys2Proof/Machine/Operands.lean ====
section
/-! DEFINITION. The operands a command takes from the buffers (30_encoding.md R64: "No operand comes from anywhere except
the command word and the buffers"). The operands in the word are the fields of Decode.lean. -/

namespace Sys2Proof.Machine

/-- What the read at `site` finds in entry `i` of a buffer: the entry, or a free value where nothing was written since
reset (42_buffers.md R116; log entry 4). -/
def State.operand (s : State) (b : Config.BufId) (site : Config.ReadSite) (i : Nat) : Byte :=
  (s.entryAt b i).getD (Config.unwritten s.draws b i site)

/-- Whether an entry was written since reset. -/
def State.written (s : State) (b : Config.BufId) (i : Nat) : Bool := (s.entryAt b i).isSome

/-- Whether entries 0..n-1 of a buffer were all written since reset. -/
def State.allWritten (s : State) (b : Config.BufId) (n : Nat) : Bool := (List.range n).all (s.written b)

end Sys2Proof.Machine
end

