-- ==== Sys2Proof/Machine/Buffers.lean ====
section
/-! DEFINITION. NOP and the buffer access commands (42_buffers.md R110 to R116). -/

namespace Sys2Proof.Machine

/-- NOP (42_buffers.md R110): no value, no write. -/
def execNop (s : State) : Host.Outcome State Fault Refusal := .next (complete .noValue s)

/-- WCOEF (42_buffers.md R111): COEF[IDX] <- D. -/
def execWcoef (idx d : Byte) (s : State) : Host.Outcome State Fault Refusal :=
  .next (complete .noValue (writeCoef idx.toNat d s))

/-- WPT (42_buffers.md R112): PX[IDX] <- X and PY[IDX] <- Y. -/
def execWpt (idx x y : Byte) (s : State) : Host.Outcome State Fault Refusal :=
  .next (complete .noValue (writePoint idx.toNat x y s))

/-- A command that returns one buffer entry; an unwritten one gives a free value and UNINIT_READ (42_buffers.md R116). -/
def completeEntry (b : Config.BufId) (idx : Byte) (s : State) : State :=
  complete (.value (s.operand b .only idx.toNat)) (noteUninit (!s.written b idx.toNat) s)

/-- RCOEF (42_buffers.md R113). -/
def execRcoef (idx : Byte) (s : State) : Host.Outcome State Fault Refusal := .next (completeEntry .coef idx s)

/-- RPX (42_buffers.md R114). -/
def execRpx (idx : Byte) (s : State) : Host.Outcome State Fault Refusal := .next (completeEntry .px idx s)

/-- RPY (42_buffers.md R115). -/
def execRpy (idx : Byte) (s : State) : Host.Outcome State Fault Refusal := .next (completeEntry .py idx s)

end Sys2Proof.Machine
end

