-- ==== Sys2Proof/Machine/Rom.lean ====
section
/-! DEFINITION. The log/antilog ROM pair (40_rom.md R81, R82) and the commands that read it, LOG (R84) and ALOG (R85). The
ROMs are constants: "Hardware and commands never write it, and reset does not change it" (10_state.md R23, R24; log
entry 12). Each row of a table is one number that reads left to right as the spec prints the row's sixteen cells. -/

namespace Sys2Proof.Machine

/-- Cell `i` of a table of rows of sixteen cells: row i / 16, column i mod 16 (40_rom.md R81, R82). -/
def romCell (rows : List Nat) (i : Nat) : Byte := BitVec.ofNat 8 (rows.getD (i / 16) 0 >>> (8 * (15 - i % 16)))

/-- The LOG ROM, rows 0x000 to 0x0F0 (40_rom.md R81). -/
def logRows : List Nat :=
  [ 0xFF00190132021AC64BC71B6833EEDF03,
    0x6404E00E348D81EF4C7108C8F8691CC1,
    0x7DC21DB5F9B9276A4DE4A6729AC90978,
    0x652F8A05210FE12412F082453593DA8E,
    0x968FDBBD36D0CE94135CD2F140468338,
    0x66DDFD30BF068B62B325E29822889110,
    0x7E6E48C3A3B61E423A6B2854FA853DBA,
    0x2B790A159B9F5ECA4ED4ACE5F373A757,
    0xAF58A850F4EAD6744FAEE9D5E7E6ADE8,
    0x2CD7757AEB160BF559CB5FB09CA951A0,
    0x7F0CF66F17C449ECD8431F2DA4767BB7,
    0xCCBB3E5AFB60B1863B52A16CAA55299D,
    0x97B2879061BEDCFCBC95CFCD373F5BD1,
    0x5339843C41A26D47142A9E5D56F2D3AB,
    0x441192D923202E89B47CB8267799E3A5,
    0x674AEDDEC531FE180D638C80C0F77007 ]

/-- The ALOG ROM, rows 0x000 to 0x0F0 (40_rom.md R82). -/
def alogRowsLow : List Nat :=
  [ 0x0103050F113355FF1A2E7296A1F81335,
    0x5FE13848D87395A4F702060A1E2266AA,
    0xE5345CE43759EB266ABED97090ABE631,
    0x53F5040C143C44CC4FD168B8D36EB2CD,
    0x4CD467A9E03B4DD762A6F10818287888,
    0x839EB9D06BBDDC7F8198B3CE49DB769A,
    0xB5C457F9103050F00B1D2769BBD661A3,
    0xFE192B7D8792ADEC2F7193AEE92060A0,
    0xFB163A4ED26DB7C25DE73256FA153F41,
    0xC35EE23D47C940C05BED2C749CBFDA75,
    0x9FBAD564ACEF2A7E829DBCDF7A8E8980,
    0x9BB6C158E82365AFEA256FB1C843C554,
    0xFC1F2163A5F407091B2D7799B0CB46CA,
    0x45CF4ADE798B8691A8E33E42C651F30E,
    0x12365AEE297B8D8C8F8A8594A7F20D17,
    0x394BDD7C8497A2FD1C246CB4C752F601 ]

/-- The ALOG ROM, rows 0x100 to 0x1F0 (40_rom.md R82). The last two cells do not exist, and the 00 in their places is never read. -/
def alogRowsHigh : List Nat :=
  [ 0x03050F113355FF1A2E7296A1F813355F,
    0xE13848D87395A4F702060A1E2266AAE5,
    0x345CE43759EB266ABED97090ABE63153,
    0xF5040C143C44CC4FD168B8D36EB2CD4C,
    0xD467A9E03B4DD762A6F1081828788883,
    0x9EB9D06BBDDC7F8198B3CE49DB769AB5,
    0xC457F9103050F00B1D2769BBD661A3FE,
    0x192B7D8792ADEC2F7193AEE92060A0FB,
    0x163A4ED26DB7C25DE73256FA153F41C3,
    0x5EE23D47C940C05BED2C749CBFDA759F,
    0xBAD564ACEF2A7E829DBCDF7A8E89809B,
    0xB6C158E82365AFEA256FB1C843C554FC,
    0x1F2163A5F407091B2D7799B0CB46CA45,
    0xCF4ADE798B8691A8E33E42C651F30E12,
    0x365AEE297B8D8C8F8A8594A7F20D1739,
    0x4BDD7C8497A2FD1C246CB4C752F60000 ]

/-- LOG[e] (10_state.md R23). -/
def logRom (e : Byte) : Byte := romCell logRows e.toNat

/-- ALOG[i] for i in 0..509 (10_state.md R24). The indexes that arithmetic forms are in 0..508 (41_field_arith.md R101),
and the ALOG command tests its own (40_rom.md R85). -/
def alogRom (i : Nat) : Byte := romCell (alogRowsLow ++ alogRowsHigh) i

/-- What ALOG returns: ROM_RANGE for an index the ROM does not have (40_rom.md R85). -/
def alogResult (i : Count) : Result := if Config.alogDepth ≤ i.toNat then .fault .romRange else .value (alogRom i.toNat)

/-- LOG (40_rom.md R84): RESULT <- zext_32(LOG[A]); LOG[0] returns the sentinel. -/
def execLog (a : Byte) (s : State) : Host.Outcome State Fault Refusal := .next (complete (.value (logRom a)) s)

/-- ALOG (40_rom.md R85). -/
def execAlog (i : Count) (s : State) : Host.Outcome State Fault Refusal := .next (complete (alogResult i) s)

end Sys2Proof.Machine
end

