-- ==== Sys2Proof/Machine/Field.lean ====
section
/-! DEFINITION. The four field functions (41_field_arith.md R90 to R93), the carry-less product the spec proves them
against (40_rom.md R80), and the commands ADD, SUB, MUL and DIV (R94 to R97). -/

namespace Sys2Proof.Machine

/-- gf_add(a, b) = a ^ b (41_field_arith.md R90). -/
def gfAdd (a b : Byte) : Byte := a ^^^ b

/-- gf_sub(a, b) = a ^ b, identical to gf_add (41_field_arith.md R91). -/
def gfSub (a b : Byte) : Byte := a ^^^ b

/-- gf_mul(a, b): 0 if an operand is 0, else ALOG at the exact sum of the logarithms (41_field_arith.md R92). -/
def gfMul (a b : Byte) : Byte :=
  if a = 0 ∨ b = 0 then 0 else alogRom ((logRom a).toNat + (logRom b).toNat)

/-- The inverse the divider forms: ALOG[255 - LOG[b]] (41_field_arith.md R93). -/
def gfInv (b : Byte) : Byte := alogRom (255 - (logRom b).toNat)

/-- gf_div(a, b): raises DIV_ZERO for b = 0 before any ROM read, else a times the inverse of b (41_field_arith.md R93). -/
def gfDiv (a b : Byte) : Except FaultCode Byte :=
  if b = 0 then .error .divZero else .ok (gfMul a (gfInv b))

/-- The first loop of clmul_mod: the 16-bit carry-less product (40_rom.md R80). -/
def clmul (a b : Byte) : BitVec 16 :=
  (List.range 8).foldl (fun r k => if b.getLsbD k then r ^^^ (a.zeroExtend 16 <<< k) else r) 0

/-- The second loop of clmul_mod: reduction modulo FIELD_POLY, k from 15 down to 8 (40_rom.md R80). -/
def polyReduce (r : BitVec 16) : BitVec 16 :=
  [15, 14, 13, 12, 11, 10, 9, 8].foldl
    (fun r k => if r.getLsbD k then r ^^^ (Config.fieldPoly <<< (k - 8)) else r) r

/-- clmul_mod(a, b) (40_rom.md R80): what the ROMs were generated with, and what gf_mul equals (41_field_arith.md R100). -/
def clmulMod (a b : Byte) : Byte := (polyReduce (clmul a b)).truncate 8

/-- xtime(v) = (v << 1)[7:0] ^ (v[7] ? 0x1B : 0x00) (40_rom.md R80, 93_implementation_defined.md G2). -/
def xtime (v : Byte) : Byte := (v <<< 1) ^^^ (if v.getLsbD 7 then 0x1B else 0x00)

/-- A field function's outcome as Execute returns it (00_scope.md R8: `gf_div(a, 0)` is `raise Fault(DIV_ZERO)`). -/
def resultOf : Except FaultCode Byte → Result
  | .ok v => .value v
  | .error c => .fault c

/-- ADD (41_field_arith.md R94). -/
def execAdd (a b : Byte) (s : State) : Host.Outcome State Fault Refusal := .next (complete (.value (gfAdd a b)) s)

/-- SUB (41_field_arith.md R95). -/
def execSub (a b : Byte) (s : State) : Host.Outcome State Fault Refusal := .next (complete (.value (gfSub a b)) s)

/-- MUL (41_field_arith.md R96). -/
def execMul (a b : Byte) (s : State) : Host.Outcome State Fault Refusal := .next (complete (.value (gfMul a b)) s)

/-- DIV (41_field_arith.md R97). -/
def execDiv (a b : Byte) (s : State) : Host.Outcome State Fault Refusal := .next (complete (resultOf (gfDiv a b)) s)

end Sys2Proof.Machine
end

