-- ==== Sys2Proof/Machine/Eval.lean ====
section
/-! DEFINITION. EVAL, Horner's method over COEF[0..N-1] (43_eval.md R120). -/

namespace Sys2Proof.Machine

/-- The loop of 43_eval.md R120 with `n` coefficients left, highest index first, from accumulator `acc`. -/
def hornerFrom (c : Nat → Byte) (x : Byte) : Nat → Byte → Byte
  | 0, acc => acc
  | n + 1, acc => hornerFrom c x n (gfAdd (gfMul acc x) (c n))

/-- Horner(N, X): the accumulator starts at 0x00 (43_eval.md R120). -/
def horner (c : Nat → Byte) (x : Byte) (n : Nat) : Byte := hornerFrom c x n 0

/-- What EVAL returns: BAD_LEN for N > 256, before any operand is used (43_eval.md R120, 30_encoding.md R67). -/
def evalResult (x : Byte) (n : Count) (s : State) : Result :=
  if Config.nMax < n.toNat then .fault .badLen else .value (horner (s.operand .coef .only) x n.toNat)

/-- Whether EVAL reads an unwritten entry: it reads COEF[0..N-1] once each, and nothing when N > 256 (43_eval.md R120). -/
def evalUninit (n : Count) (s : State) : Bool := decide (n.toNat ≤ Config.nMax) && !s.allWritten .coef n.toNat

/-- EVAL (43_eval.md R120). -/
def execEval (x : Byte) (n : Count) (s : State) : Host.Outcome State Fault Refusal :=
  .next (complete (evalResult x n s) (noteUninit (evalUninit n s) s))

end Sys2Proof.Machine
end

