-- ==== Sys2Proof/Machine/Interp.lean ====
section
/-! DEFINITION. INTERP, Lagrange interpolation at x = 0 over (PX[i], PY[i]), i < N (44_interp.md R130 to R133). The buffers
come in as functions of the read and the index: two reads of one unwritten entry need not agree (42_buffers.md R116). -/

namespace Sys2Proof.Machine

/-- The x = 0 check, i ascending: the first index whose x is 0 (44_interp.md R131). -/
def firstZero (px : Config.ReadSite → Nat → Byte) (n : Nat) : Option Nat :=
  (List.range n).find? (fun i => px .zeroCheck i == 0)

/-- The distinctness check: whether PX[i] = PX[j] for some i < j < n (44_interp.md R132). -/
def hasRepeat (px : Config.ReadSite → Nat → Byte) (n : Nat) : Bool :=
  (List.range n).any (fun i => (List.range' (i + 1) (n - 1 - i)).any (fun j => px (.pairLeft j) i == px (.pairRight i) j))

/-- The basis factor of points i and j (44_interp.md R130, R133). -/
def basisFactor (px : Config.ReadSite → Nat → Byte) (i j : Nat) : Except FaultCode Byte :=
  gfDiv (gfSub 0x00 (px (.numerator i) j)) (gfSub (px (.minuend j) i) (px (.subtrahend i) j))

/-- The inner loop of 44_interp.md R130 over the indexes `js`, skipping j = i, from product `l`. -/
def basisLoop (px : Config.ReadSite → Nat → Byte) (i : Nat) : List Nat → Byte → Except FaultCode Byte
  | [], l => .ok l
  | j :: js, l =>
    if j = i then basisLoop px i js l
    else match basisFactor px i j with
      | .ok q => basisLoop px i js (gfMul l q)
      | .error c => .error c

/-- The outer loop of 44_interp.md R130 over the indexes `is`, with `n` points, from sum `acc`. -/
def sumLoop (px : Config.ReadSite → Nat → Byte) (py : Nat → Byte) (n : Nat) : List Nat → Byte → Except FaultCode Byte
  | [], acc => .ok acc
  | i :: is, acc =>
    match basisLoop px i (List.range n) 0x01 with
    | .ok l => sumLoop px py n is (gfAdd acc (gfMul l (py i)))
    | .error c => .error c

/-- Lagrange0(N) (44_interp.md R130): the x = 0 check, then the distinctness check, then the sum (R143). -/
def lagrangeZero (px : Config.ReadSite → Nat → Byte) (py : Nat → Byte) (n : Nat) : Except FaultCode Byte :=
  if (firstZero px n).isSome then .error .xZero
  else if hasRepeat px n then .error .divZero
  else sumLoop px py n (List.range n) 0x00

/-- What INTERP returns: BAD_LEN for N > 256, before any operand is used (44_interp.md R130, 30_encoding.md R67). -/
def interpResult (n : Count) (s : State) : Result :=
  if Config.nMax < n.toNat then .fault .badLen
  else resultOf (lagrangeZero (s.operand .px) (s.operand .py .weight) n.toNat)

/-- Whether INTERP reads an unwritten entry: the x = 0 check stops at the first 0, the later checks read PX[0..N-1], and
PY[0..N-1] is read only when both checks pass (44_interp.md R130 to R132; log entry 22). -/
def interpUninit (n : Count) (s : State) : Bool :=
  decide (n.toNat ≤ Config.nMax) &&
    match firstZero (s.operand .px) n.toNat with
    | some k => !s.allWritten .px (k + 1)
    | none => !s.allWritten .px n.toNat || (!hasRepeat (s.operand .px) n.toNat && !s.allWritten .py n.toNat)

/-- INTERP (44_interp.md R130). -/
def execInterp (n : Count) (s : State) : Host.Outcome State Fault Refusal :=
  .next (complete (interpResult n s) (noteUninit (interpUninit n s) s))

end Sys2Proof.Machine
end

