-- ==== Sys2Proof/Machine/Dispatch.lean ====
section
/-! DEFINITION. Execute's case on the command (30_encoding.md R68), one arm per constructor. -/

namespace Sys2Proof.Machine

def exec (i : Instr) (s : State) : Host.Outcome State Fault Refusal :=
  match i with
  | .nop => Sys2Proof.Machine.execNop s
  | .add a b => Sys2Proof.Machine.execAdd a b s
  | .sub a b => Sys2Proof.Machine.execSub a b s
  | .mul a b => Sys2Proof.Machine.execMul a b s
  | .div a b => Sys2Proof.Machine.execDiv a b s
  | .log a => Sys2Proof.Machine.execLog a s
  | .alog k => Sys2Proof.Machine.execAlog k s
  | .wcoef idx d => Sys2Proof.Machine.execWcoef idx d s
  | .wpt idx x y => Sys2Proof.Machine.execWpt idx x y s
  | .rcoef idx => Sys2Proof.Machine.execRcoef idx s
  | .rpx idx => Sys2Proof.Machine.execRpx idx s
  | .rpy idx => Sys2Proof.Machine.execRpy idx s
  | .eval x n => Sys2Proof.Machine.execEval x n s
  | .interp n => Sys2Proof.Machine.execInterp n s

end Sys2Proof.Machine
end

