-- ==== Sys2Proof/Machine/Lifecycle.lean ====
section
/-! DEFINITION. The block's own turn: the completion step of the command in flight (10_state.md R35), or nothing when the
block is idle (60_exceptions.md R156); and how a word comes to be the command in flight. -/

namespace Sys2Proof.Machine

/-- Execute(CUR) and its effects (10_state.md R35, 30_encoding.md R68): a word that matches no row raises ILLEGAL_CMD before
anything is read or written (60_exceptions.md R141). -/
def completeCurrent (s : State) : Host.Outcome State Fault Refusal :=
  match decode s.cur with
  | .ok i => exec i s
  | .error _ => .next (complete (.fault .illegalCmd) s)

/-- The block's turn: it completes the command in flight; idle, it keeps every piece of state (60_exceptions.md R156). -/
def blockTurn (s : State) : Host.Outcome State Fault Refusal := if s.busy then completeCurrent s else .next s

/-- The state in which `w` has been accepted (10_state.md R27) and the next turn is the block's, so that the very next step
completes exactly that command. An accepted command excludes FAULT (10_state.md R30). -/
def acceptedNext (w : Word) (s : State) : State :=
  { s with cur := w, busy := true, fault := false, fcode := none, agenda := .block :: s.agenda }

/-- A table word as the 32-bit command word it is, bits above `nbits` zero. -/
def tableWord (nbits w : Nat) : Word := BitVec.ofNat 32 (w % 2 ^ nbits)

end Sys2Proof.Machine
end

