-- ==== Sys2Proof/Machine/Window.lean ====
section
/-! DEFINITION. The host's register window (20_memory.md R40 to R46, 10_state.md R27 to R33): which accesses are legal, and
what a read and a write of each register do. -/

namespace Sys2Proof.Machine

/-- The four host registers (20_memory.md R40). -/
inductive Reg where
  | cmd
  | result
  | status
  | ctrl
  deriving DecidableEq, Repr

/-- A register's offset in the window (20_memory.md R40). -/
def Reg.offset : Reg → Nat
  | .cmd => 0x00
  | .result => 0x04
  | .status => 0x08
  | .ctrl => 0x0C

/-- The register at an offset, if one starts there (20_memory.md R40). -/
def regAt (off : Nat) : Option Reg :=
  if off = 0x00 then some .cmd
  else if off = 0x04 then some .result
  else if off = 0x08 then some .status
  else if off = 0x0C then some .ctrl
  else none

/-- Whether an access touches any of the 16 bytes at BASE (20_memory.md R40). -/
def Access.touchesWindow (a : Access) : Bool :=
  decide (0 < a.bytes * a.beats) && decide (a.addr < Config.base + 16) && decide (Config.base < a.addr + a.bytes * a.beats)

/-- The register a legal access reaches: one naturally aligned 32-bit access (20_memory.md R42). -/
def Access.target (a : Access) : Option Reg :=
  if a.bytes = 4 ∧ a.beats = 1 ∧ Config.base ≤ a.addr then regAt (a.addr - Config.base) else none

/-- A host read of RESULT: RES while BUSY = 0, a free value drawn afresh while BUSY = 1 (10_state.md R28,
70_reset_and_hazards.md R176; log entry 3). -/
def readResult (s : State) : State :=
  if s.busy then { s with lastRead := some (Config.busyResult s.draws), draws := s.draws + 1 }
  else { s with lastRead := some s.resultWord }

/-- A host read: CMD and CTRL read 0 (10_state.md R27, R33), and no read changes the block (20_memory.md R46). -/
def readReg (r : Reg) (s : State) : State :=
  match r with
  | .cmd => { s with lastRead := some 0x00000000 }
  | .result => readResult s
  | .status => { s with lastRead := some s.statusWord }
  | .ctrl => { s with lastRead := some 0x00000000 }

/-- A host write: writes to RESULT and STATUS are ignored (20_memory.md R46). -/
def writeReg (r : Reg) (v : Word) (s : State) : State :=
  match r with
  | .cmd => writeCmd v s
  | .result => s
  | .status => s
  | .ctrl => writeCtrl v s

/-- One host access: to a register, outside the window (it "does not reach the block", 93_implementation_defined.md U-8;
log entry 7), or refused (20_memory.md R42; log entry 6). -/
def hostAccess (a : Access) (s : State) : Host.Outcome State Fault Refusal :=
  match a.target with
  | some r =>
    match a.transfer with
    | .read => .next (readReg r s)
    | .write v => .next (writeReg r v s)
  | none =>
    if a.touchesWindow then .refused (.illegalAccess a (s.record ++ [.refusedAccess])) else .next s

/-- The legal host read of a register, MemRead(BASE+off, 4) (00_scope.md R7). -/
def Access.readOf (r : Reg) : Access := { transfer := .read, addr := Config.base + r.offset, bytes := 4, beats := 1 }

/-- The legal host write of a register, MemWrite(BASE+off, 4, v) (00_scope.md R7). -/
def Access.writeOf (r : Reg) (v : Word) : Access :=
  { transfer := .write v, addr := Config.base + r.offset, bytes := 4, beats := 1 }

end Sys2Proof.Machine
end

