-- ==== Sys2Proof/Machine/Step.lean ====
section
/-! DEFINITION. One step of the machine: the agent whose turn it is moves (20_memory.md R48; log entry 1). -/

namespace Sys2Proof.Machine

/-- One step: a host access, the block's turn, or the platform's reset. -/
def step (s : State) : Host.Outcome State Fault Refusal :=
  match s.nextTurn with
  | .host a => hostAccess a s.popTurn
  | .block => blockTurn s.popTurn
  | .reset => .next (resetBlock s.popTurn)

/-- `s` with the table word `w` accepted as the command in flight and the block's turn next (log entry 10). -/
def State.withFetchWord (s : State) (nbits w : Nat) : State := acceptedNext (tableWord nbits w) s

end Sys2Proof.Machine
end

