-- ==== Sys2Proof/Machine/Assembler.lean ====
section
/-! DEFINITION. The assembler of 30_encoding.md R69 and R70, from parsed lines on (log entry 18), and the host operations
R69 names as turns of the agenda. -/

namespace Sys2Proof.Machine

/-- A line of assembler source, its operands numeric literals in the order R69 writes them. -/
inductive AsmLine where
  | nop
  | add (a b : Nat)
  | sub (a b : Nat)
  | mul (a b : Nat)
  | div (a b : Nat)
  | log (a : Nat)
  | alog (i : Nat)
  | wcoef (idx d : Nat)
  | wpt (idx x y : Nat)
  | rcoef (idx : Nat)
  | rpx (idx : Nat)
  | rpy (idx : Nat)
  | eval (x n : Nat)
  | interp (n : Nat)
  /-- The pseudo-instruction INV b (30_encoding.md R70). -/
  | inv (b : Nat)
  /-- The pseudo-instruction LDI v (30_encoding.md R70). -/
  | ldi (v : Nat)
  /-- The pseudo-instruction SQR a (30_encoding.md R70). -/
  | sqr (a : Nat)
  deriving DecidableEq, Repr

/-- A literal for a field of `width` bits: refused, not truncated, where it does not fit (30_encoding.md R69). -/
def literal (width v : Nat) : Option (BitVec width) := if v < 2 ^ width then some (BitVec.ofNat width v) else none

/-- A command of two 8-bit operands. -/
def literals2 (mk : Byte → Byte → Instr) (a b : Nat) : Option Instr :=
  match literal 8 a, literal 8 b with
  | some x, some y => some (mk x y)
  | _, _ => none

/-- The command a line stands for (30_encoding.md R69); a pseudo-instruction expands to exactly one (R70). -/
def assemble : AsmLine → Option Instr
  | .nop => some .nop
  | .add a b => literals2 .add a b
  | .sub a b => literals2 .sub a b
  | .mul a b => literals2 .mul a b
  | .div a b => literals2 .div a b
  | .log a => (literal 8 a).map .log
  | .alog i => (literal 9 i).map .alog
  | .wcoef idx d => literals2 .wcoef idx d
  | .wpt idx x y =>
    match literal 8 idx, literal 8 x, literal 8 y with
    | some i, some u, some v => some (.wpt i u v)
    | _, _, _ => none
  | .rcoef idx => (literal 8 idx).map .rcoef
  | .rpx idx => (literal 8 idx).map .rpx
  | .rpy idx => (literal 8 idx).map .rpy
  | .eval x n =>
    match literal 8 x, literal 9 n with
    | some u, some k => some (.eval u k)
    | _, _ => none
  | .interp n => (literal 9 n).map .interp
  | .inv b => literals2 .div 0x01 b
  | .ldi v => literals2 .add v 0x00
  | .sqr a => literals2 .mul a a

/-- Issuing a command: one host write of its word to CMD (30_encoding.md R60). -/
def Turn.issue (i : Instr) : Turn := .host (Access.writeOf .cmd (encode i))

/-- `rd RESULT`: one host read (30_encoding.md R69). -/
def Turn.rdResult : Turn := .host (Access.readOf .result)

/-- `rd STATUS`: one host read (30_encoding.md R69). -/
def Turn.rdStatus : Turn := .host (Access.readOf .status)

/-- `clrf`: write 0x00000001 to CTRL (30_encoding.md R69). -/
def Turn.clrf : Turn := .host (Access.writeOf .ctrl 0x00000001)

end Sys2Proof.Machine
end

