-- ==== Sys2Proof/Safety.lean ====
section
/-! DEFINITION. What counts as a safe run, in the terms claims use: the machine's invariant, runs, and the conditions the
spec puts on the host's use of a result. -/

namespace Sys2Proof.Machine

/-- What holds of every state a run can reach. -/
structure State.Inv (s : State) : Prop where
  /-- "BUSY = 1 and FAULT = 1 never hold together" (10_state.md R30). -/
  busy_fault : ¬(s.busy = true ∧ s.fault = true)
  /-- FAULT and FCODE are written and cleared together (10_state.md R31). -/
  fault_fcode : s.fault = s.fcode.isSome
  /-- The buffers keep their canonical form. -/
  coef_wf : Memory.wf s.coef = true
  px_wf : Memory.wf s.px = true
  py_wf : Memory.wf s.py = true
  /-- WPT writes PX and PY at one index in one command (10_state.md R26). -/
  same_points : s.px.map Prod.fst = s.py.map Prod.fst
  /-- OVR = 1 means at least one command since the last CLRF or reset was lost (70_reset_and_hazards.md R173). -/
  ovr_lost : s.ovr = true → s.lost ≠ []
  /-- A fault that STATUS shows is in the ghost record (60_exceptions.md R151). -/
  fault_recorded : ∀ c, s.fcode = some c → Recorded.fault c ∈ s.record

/-- `t` follows from `s` in `k` steps, each answering a next state. -/
def Reaches : Nat → State → State → Prop
  | 0, s, t => s = t
  | k + 1, s, t => ∃ m, step s = .next m ∧ Reaches k m t

/-- The claim "no command faulted", over the ghost record and not over STATUS.FAULT (60_exceptions.md R151). DESIGN CHOICE:
it counts the five faults with an FCODE and leaves the model-level UNINIT_READ, which R151 puts in the same record, to
`NoUnwrittenRead` (log entry 24). -/
def State.NoCommandFaulted (s : State) : Prop := ∀ c, Recorded.fault c ∉ s.record

/-- A program is correct only if every entry its commands read was written first (42_buffers.md R116). -/
def State.NoUnwrittenRead (s : State) : Prop := Recorded.uninitRead ∉ s.record

/-- Nothing was raised since reset. -/
abbrev State.Safe (s : State) : Prop := s.record = []

/-- The host may use RESULT (70_reset_and_hazards.md R174). -/
abbrev State.ResultUsable (s : State) : Prop := s.busy = false ∧ s.fault = false

/-- The block accepts the next CMD write (10_state.md R27, 20_memory.md R48). -/
abbrev State.Ready (s : State) : Prop := s.busy = false ∧ s.fault = false

/-- COEF[0..n-1] were written since reset and hold `c` (10_state.md R25). -/
abbrev State.Coefs (s : State) (n : Nat) (c : Nat → Byte) : Prop := ∀ i, i < n → s.entryAt .coef i = some (c i)

/-- PX[0..n-1] and PY[0..n-1] were written since reset and hold `xs` and `ys` (10_state.md R26). -/
abbrev State.Points (s : State) (n : Nat) (xs ys : Nat → Byte) : Prop :=
  ∀ i, i < n → s.entryAt .px i = some (xs i) ∧ s.entryAt .py i = some (ys i)

/-- The generator's k-th power by k carry-less multiplications, starting from 0x01 (40_rom.md R80). -/
def genPower : Nat → Byte
  | 0 => 0x01
  | k + 1 => clmulMod (genPower k) Config.gen

/-- x to the power k, with x^0 = 1 (43_eval.md R121). -/
def gfPow (x : Byte) : Nat → Byte
  | 0 => 1
  | k + 1 => gfMul (gfPow x k) x

/-- The sum of f 0 .. f (n-1) under gf_add (43_eval.md R121, 44_interp.md R130). -/
def gfSum (f : Nat → Byte) : Nat → Byte
  | 0 => 0
  | k + 1 => gfAdd (gfSum f k) (f k)

/-- The product of f 0 .. f (n-1) under gf_mul (44_interp.md R130). -/
def gfProd (f : Nat → Byte) : Nat → Byte
  | 0 => 1
  | k + 1 => gfMul (gfProd f k) (f k)

/-- The x-coordinates are nonzero and pairwise distinct (44_interp.md R131, R132). -/
abbrev ProperPoints (n : Nat) (xs : Nat → Byte) : Prop :=
  (∀ i, i < n → xs i ≠ 0) ∧ ∀ j, j < n → ∀ i, i < j → xs i ≠ xs j

end Sys2Proof.Machine
end

