-- ==== Sys2Proof/WellFormed.lean ====
section
/-! DEFINITION. Which commands carry only legal operand values (30_encoding.md R67). An ill-formed command still has a
word and a meaning: it raises the fault R67 names. -/

namespace Sys2Proof

/-- 30_encoding.md R67: N is legal up to N_MAX, I below ALOG_DEPTH; "No other field has an illegal value". -/
def Instr.wf : Instr → Bool
  | .alog i => i.toNat < Config.alogDepth
  | .eval _ n => n.toNat ≤ Config.nMax
  | .interp n => n.toNat ≤ Config.nMax
  | .nop | .add _ _ | .sub _ _ | .mul _ _ | .div _ _ | .log _ | .wcoef _ _ | .wpt _ _ _ | .rcoef _ | .rpx _ | .rpy _ => true

end Sys2Proof
end

