-- ==== Sys2Proof/Certificates/Slice0/Obligations.lean ====
section
/-! DEFINITION. The statements for the provers, from the numbered rules of spec/. A statement about `exec` is about the
completion step of one command (10_state.md R35); a statement about `step` is about one turn (20_memory.md R48). -/

open Sys2Proof Sys2Proof.Machine

/-- 70_reset_and_hazards.md R170: the values reset leaves, in the reset state and after a reset that arrives at any time. A
command in flight then has none of its effects. The last two clauses are the model's choice (log entry 14, which reads
60_exceptions.md R151's "since reset"): the ghost record is empty after a reset, and the turns to come go on. -/
def Obligations.ResetLeavesTheSpecValues : Prop :=
  (State.reset.resultWord = 0x00000000 ∧ State.reset.statusWord = 0x00000000 ∧
    ∀ b i, State.reset.entryAt b i = none) ∧
  ∀ s : State, s.nextTurn = .reset →
    ∃ t, step s = .next t ∧ t.resultWord = 0x00000000 ∧ t.statusWord = 0x00000000 ∧
      (∀ b i, t.entryAt b i = none) ∧ t.record = [] ∧ t.agenda = s.agenda.tail

/-- 10_state.md R35, 30_encoding.md R68: when the block's turn comes and a command is in flight whose bytes decode, the step
is that command's completion. -/
def Obligations.StepRunsTheDecodedCommand : Prop :=
  ∀ (s : State) (i : Instr), s.nextTurn = .block → s.busy = true →
    decodeBytes (bytesOfWord s.cur) = .ok (i, []) → step s = exec i s.popTurn

/-- 60_exceptions.md R156: the block is idle whenever BUSY = 0, and every piece of state is kept. Which turns come is the
model's agenda (log entry 1). -/
def Obligations.IdleBlockKeepsItsState : Prop :=
  ∀ s : State, s.nextTurn = .block → s.busy = false → step s = .next { s with agenda := s.agenda.tail }

/-- 00_scope.md R9, 10_state.md R27 and R35: a command written to a ready block is accepted, its word captured in CUR, and
the block's next turn completes exactly that command. -/
def Obligations.IssuedCommandRunsAtTheBlocksTurn : Prop :=
  ∀ (s : State) (i : Instr) (rest : List Turn), s.Ready → s.agenda = Turn.issue i :: .block :: rest →
    step s = .next { s with cur := encode i, busy := true, agenda := .block :: rest } ∧
    step { s with cur := encode i, busy := true, agenda := .block :: rest } =
      exec i { s with cur := encode i, busy := true, agenda := rest }

/-- 60_exceptions.md R141: an accepted word that matches no row raises ILLEGAL_CMD at completion and writes nothing else. -/
def Obligations.UnmatchedWordRaisesIllegalCmd : Prop :=
  ∀ s : State, s.nextTurn = .block → s.busy = true → (∀ r ∈ opRows, s.cur &&& r.mask ≠ r.pattern) →
    step s = .next { s with fault := true, fcode := some .illegalCmd, busy := false,
                            record := s.record ++ [.fault .illegalCmd], agenda := s.agenda.tail }

/-- 30_encoding.md R63 to R65: decoding the word of any command, or its bytes, gives the command back with every operand. -/
def Obligations.DecodeReadsBackEveryEncoding : Prop :=
  ∀ (i : Instr) (rest : List Byte), decode (encode i) = .ok i ∧ decodeBytes (encodeBytes i ++ rest) = .ok (i, rest)

/-- 30_encoding.md R63 to R66: every word the decoder accepts is the encoding of what it reads, so no reserved bit is
dropped. -/
def Obligations.EveryDecodedWordIsItsEncoding : Prop :=
  ∀ (w : Word) (i : Instr), decode w = .ok i → encode i = w

/-- 30_encoding.md R65: "no word matches two rows". -/
def Obligations.NoWordMatchesTwoRows : Prop :=
  opRows.length = 14 ∧
  opRows.Pairwise fun r q => ∀ w : Word, ¬(w &&& r.mask = r.pattern ∧ w &&& q.mask = q.pattern)

/-- 30_encoding.md R63 and R66: a word is a command exactly when OP is not reserved, RSV is 0 and every bit its format
reserves is 0. The reserved bits are written out from R63's rows. -/
def Obligations.LegalWordsAreThoseOfTheFormats : Prop :=
  ∀ w : Word, (∃ i, decode w = .ok i) ↔
    w.extractLsb' 4 4 = 0 ∧
      match (w.extractLsb' 0 4).toNat with
      | 0x0 => w.extractLsb' 8 24 = 0
      | 0x1 | 0x2 | 0x3 | 0x4 => w.extractLsb' 24 8 = 0
      | 0x5 => w.extractLsb' 16 16 = 0
      | 0x6 | 0xD => w.extractLsb' 8 8 = 0 ∧ w.extractLsb' 25 7 = 0
      | 0x7 => w.extractLsb' 16 8 = 0
      | 0x8 => True
      | 0x9 | 0xA | 0xB => w.extractLsb' 8 16 = 0
      | 0xC => w.extractLsb' 25 7 = 0
      | _ => False

/-- 30_encoding.md R63, R69 and the examples of R84, R97, R111, R112 and R120: words written out from the spec's formats. -/
def Obligations.SampleWordsDecodeAsTheSpecWritesThem : Prop :=
  decode 0x00000000 = .ok .nop ∧ decode 0x00070303 = .ok (.mul 0x03 0x07) ∧
  decode 0x00070904 = .ok (.div 0x09 0x07) ∧ decode 0x00000205 = .ok (.log 0x02) ∧
  decode 0x02001D07 = .ok (.wcoef 2 0x1D) ∧ decode 0x002A0108 = .ok (.wpt 0 0x01 0x2A) ∧
  decode 0x0003020C = .ok (.eval 0x02 3)

/-- 41_field_arith.md R90 and R91, with 42_buffers.md R110, R94 and R95: what NOP, ADD and SUB leave, the whole next
state. -/
def Obligations.NopAddAndSubResults : Prop :=
  ∀ (a b : Byte) (s : State),
    exec .nop s = .next { s with busy := false } ∧
    exec (.add a b) s = .next { s with result := a ^^^ b, busy := false } ∧
    exec (.sub a b) s = .next { s with result := a ^^^ b, busy := false } ∧
    gfAdd a b = a ^^^ b ∧ gfSub a b = a ^^^ b

/-- 41_field_arith.md R100 and R96: MUL never faults and returns the carry-less product modulo 0x11B. -/
def Obligations.MulReturnsTheCarrylessProduct : Prop :=
  ∀ a b : Byte, gfMul a b = clmulMod a b ∧
    ∀ s : State, exec (.mul a b) s = .next { s with result := clmulMod a b, busy := false }

/-- 41_field_arith.md R93, R97 and R99: DIV by a nonzero divisor returns the one byte whose product with it is the
dividend. -/
def Obligations.DivReturnsTheQuotient : Prop :=
  ∀ (a b : Byte) (s : State), b ≠ 0 →
    ∃ q, exec (.div a b) s = .next { s with result := q, busy := false } ∧ clmulMod q b = a ∧
      ∀ r, clmulMod r b = a → r = q

/-- 41_field_arith.md R97: DIV with B = 0 raises DIV_ZERO whatever A is, and RESULT is unchanged. -/
def Obligations.DivByZeroRaisesDivZero : Prop :=
  ∀ (a : Byte) (s : State),
    exec (.div a 0) s = .next { s with fault := true, fcode := some .divZero, busy := false,
                                       record := s.record ++ [.fault .divZero] }

/-- 40_rom.md R84 and 10_state.md R23: LOG returns the sentinel for 0, else the unique L in 0..254 with ALOG[L] = A, which
is also the number of multiplications by 0x03 that lead from 0x01 to A (40_rom.md R80). -/
def Obligations.LogReturnsTheDiscreteLogarithm : Prop :=
  ∀ (a : Byte) (s : State), ∃ v : Byte, exec (.log a) s = .next { s with result := v, busy := false } ∧
    (a = 0 → v = 0xFF) ∧
    (a ≠ 0 → v.toNat < 255 ∧ genPower v.toNat = a ∧ alogRom v.toNat = a ∧
      ∀ l, l < 255 → alogRom l = a → l = v.toNat)

/-- 40_rom.md R80 and R85: ALOG returns 0x01 multiplied I times by 0x03 for I up to 509, and raises ROM_RANGE above. -/
def Obligations.AlogReturnsThePowerOfTheGenerator : Prop :=
  ∀ (i : Count) (s : State),
    (i.toNat ≤ 509 → exec (.alog i) s =
      .next { s with result := genPower i.toNat, busy := false }) ∧
    (509 < i.toNat → exec (.alog i) s =
      .next { s with fault := true, fcode := some .romRange, busy := false, record := s.record ++ [.fault .romRange] })

/-- 40_rom.md R83, its four facts about the ROM contents. That the group's generator is 0x03 is the clause on `genPower`, which
multiplies 0x01 by 0x03 again and again (40_rom.md R80). -/
def Obligations.RomContentsInvariants : Prop :=
  (∀ e : Byte, e ≠ 0 → alogRom (logRom e).toNat = e) ∧
  (∀ i, 255 ≤ i → i ≤ 509 → alogRom i = alogRom (i - 255) ∧ alogRom (i - 255) = alogRom (i % 255)) ∧
  (∀ e : Byte, e ≠ 0 → ∃ i, i < 255 ∧ alogRom i = e ∧ ∀ j, j < 255 → alogRom j = e → j = i) ∧
  (Config.gen = 0x03 ∧ ∀ i, i < 510 → alogRom i = genPower i ∧ alogRom i ≠ 0) ∧
  logRows.length * 16 = 256 ∧ ∀ i : Count, (∃ v, alogResult i = .value v) ↔ i.toNat < 510

/-- 41_field_arith.md R98: the laws of addition. -/
def Obligations.AdditionLaws : Prop :=
  ∀ a b c : Byte, gfAdd a b = gfAdd b a ∧ gfAdd (gfAdd a b) c = gfAdd a (gfAdd b c) ∧ gfAdd a 0 = a ∧
    gfAdd a a = 0 ∧ gfSub (gfAdd a b) b = a

/-- 41_field_arith.md R99: the laws of multiplication and division. -/
def Obligations.MultiplicationAndDivisionLaws : Prop :=
  ∀ a b c : Byte,
    gfMul a b = gfMul b a ∧ gfMul (gfMul a b) c = gfMul a (gfMul b c) ∧
    gfMul a (gfAdd b c) = gfAdd (gfMul a b) (gfMul a c) ∧ gfMul a 1 = a ∧ gfMul a 0 = 0 ∧
    (b ≠ 0 → (∃ q, gfDiv 1 b = .ok q ∧ gfMul b q = 1) ∧ gfDiv (gfMul a b) b = .ok a ∧
      (∃ q, gfDiv a b = .ok q ∧ gfMul q b = a) ∧ gfDiv 0 b = .ok 0) ∧
    (gfMul a b = 0 ↔ a = 0 ∨ b = 0)

/-- 42_buffers.md R111: WCOEF writes the entry at IDX, and no other entry, register or flag but BUSY. -/
def Obligations.WcoefWritesOneCoefficient : Prop :=
  ∀ (idx d : Byte) (s : State), ∃ t, exec (.wcoef idx d) s = .next t ∧
    t.entryAt .coef idx.toNat = some d ∧
    (∀ k, k ≠ idx.toNat → t.entryAt .coef k = s.entryAt .coef k) ∧
    t = { s with coef := t.coef, busy := false }

/-- 42_buffers.md R112: WPT writes PX and PY at IDX in one step, and no other entry, register or flag but BUSY. -/
def Obligations.WptWritesOnePoint : Prop :=
  ∀ (idx x y : Byte) (s : State), ∃ t, exec (.wpt idx x y) s = .next t ∧
    t.entryAt .px idx.toNat = some x ∧ t.entryAt .py idx.toNat = some y ∧
    (∀ k, k ≠ idx.toNat → t.entryAt .px k = s.entryAt .px k ∧ t.entryAt .py k = s.entryAt .py k) ∧
    t = { s with px := t.px, py := t.py, busy := false }

/-- 42_buffers.md R113, R114 and R115: the read commands return the entry that was written. -/
def Obligations.ReadCommandsReturnWrittenEntries : Prop :=
  ∀ (idx v : Byte) (s : State),
    (s.entryAt .coef idx.toNat = some v → exec (.rcoef idx) s = .next { s with result := v, busy := false }) ∧
    (s.entryAt .px idx.toNat = some v → exec (.rpx idx) s = .next { s with result := v, busy := false }) ∧
    (s.entryAt .py idx.toNat = some v → exec (.rpy idx) s = .next { s with result := v, busy := false })

/-- 42_buffers.md R116: a read command of an unwritten entry raises no fault of the block, some value results, and
UNINIT_READ enters the ghost record. That the run goes on with a free value is the model's choice (log entry 4). -/
def Obligations.ReadCommandsOfUnwrittenEntries : Prop :=
  ∀ (idx : Byte) (s : State),
    (s.entryAt .coef idx.toNat = none → ∃ v, exec (.rcoef idx) s =
      .next { s with result := v, busy := false, record := s.record ++ [.uninitRead], draws := s.draws + 1 }) ∧
    (s.entryAt .px idx.toNat = none → ∃ v, exec (.rpx idx) s =
      .next { s with result := v, busy := false, record := s.record ++ [.uninitRead], draws := s.draws + 1 }) ∧
    (s.entryAt .py idx.toNat = none → ∃ v, exec (.rpy idx) s =
      .next { s with result := v, busy := false, record := s.record ++ [.uninitRead], draws := s.draws + 1 })

/-- 43_eval.md R120: EVAL over written coefficients returns the sum of COEF[i] times X to the i, for every N up to 256 and
every X, and changes nothing else. -/
def Obligations.EvalReturnsThePolynomialsValue : Prop :=
  ∀ (x : Byte) (n : Count) (c : Nat → Byte) (s : State), n.toNat ≤ 256 → s.Coefs n.toNat c →
    exec (.eval x n) s =
      .next { s with result := gfSum (fun i => gfMul (c i) (gfPow x i)) n.toNat, busy := false }

/-- 43_eval.md R121: the laws of EVAL, over the Horner loop of R120. -/
def Obligations.HornerLaws : Prop :=
  ∀ (c : Nat → Byte) (x : Byte) (n : Nat), 1 ≤ n →
    horner c x n = gfSum (fun i => gfMul (c i) (gfPow x i)) n ∧ gfPow x 0 = 1 ∧ horner c 0 n = c 0 ∧
    horner c 1 n = gfSum c n ∧
    (∀ m, n ≤ m → (∀ i, n ≤ i → i < m → c i = 0) → horner c x m = horner c x n) ∧
    ∀ d : Nat → Byte, (∀ i, i < n → c i = d i) → horner c x n = horner d x n

/-- 30_encoding.md R67: a count above 256 raises BAD_LEN, an index above 509 raises ROM_RANGE, before any operand is used;
no other operand value raises either. -/
def Obligations.RangeChecksRaiseTheirFaults : Prop :=
  ∀ s : State,
    (∀ (x : Byte) (n : Count), 256 < n.toNat → exec (.eval x n) s =
      .next { s with fault := true, fcode := some .badLen, busy := false, record := s.record ++ [.fault .badLen] }) ∧
    (∀ n : Count, 256 < n.toNat → exec (.interp n) s =
      .next { s with fault := true, fcode := some .badLen, busy := false, record := s.record ++ [.fault .badLen] }) ∧
    (∀ k : Count, 509 < k.toNat → exec (.alog k) s =
      .next { s with fault := true, fcode := some .romRange, busy := false, record := s.record ++ [.fault .romRange] }) ∧
    ∀ (i : Instr) (t : State), s.fcode = none → i.wf = true → exec i s = .next t →
      t.fcode ≠ some .badLen ∧ t.fcode ≠ some .romRange

/-- 42_buffers.md R116 on EVAL and INTERP, with 60_exceptions.md R151: an unwritten entry among those read is recorded as
UNINIT_READ, and the command completes. EVAL then has some value. INTERP that reads an unwritten PX entry has some value, or
X_ZERO or DIV_ZERO computed from the free values; with written, nonzero and distinct x and an unwritten PY entry it has some
value. That the run goes on, and that it is recorded once, is the model's choice (log entries 4 and 5). -/
def Obligations.UnwrittenOperandsAreRecorded : Prop :=
  ∀ (n : Count) (s : State), n.toNat ≤ 256 →
    (∀ x : Byte, (∃ i, i < n.toNat ∧ s.entryAt .coef i = none) → ∃ v, exec (.eval x n) s =
      .next { s with result := v, busy := false, record := s.record ++ [.uninitRead], draws := s.draws + 1 }) ∧
    ((∃ k, k < n.toNat ∧ s.entryAt .px k = none ∧ ∀ i, i < k → s.entryAt .px i ≠ some 0 ∧ s.entryAt .px i ≠ none) →
      (∃ v, exec (.interp n) s =
        .next { s with result := v, busy := false, record := s.record ++ [.uninitRead], draws := s.draws + 1 }) ∨
      ∃ c, (c = .xZero ∨ c = .divZero) ∧ exec (.interp n) s =
        .next { s with fault := true, fcode := some c, busy := false,
                       record := s.record ++ [.uninitRead, .fault c], draws := s.draws + 1 }) ∧
    ∀ xs : Nat → Byte, (∀ i, i < n.toNat → s.entryAt .px i = some (xs i)) → ProperPoints n.toNat xs →
      (∃ k, k < n.toNat ∧ s.entryAt .py k = none) → ∃ v, exec (.interp n) s =
        .next { s with result := v, busy := false, record := s.record ++ [.uninitRead], draws := s.draws + 1 }

/-- 44_interp.md R130 and R133: INTERP over written points with nonzero distinct x returns the Lagrange sum at 0, with the
basis factors PX[j] / (PX[i] ^ PX[j]) taken in the field, and changes nothing else. -/
def Obligations.InterpReturnsTheLagrangeSum : Prop :=
  ∀ (n : Count) (xs ys : Nat → Byte) (s : State), n.toNat ≤ 256 → s.Points n.toNat xs ys → ProperPoints n.toNat xs →
    exec (.interp n) s = .next { s with
      result := gfSum (fun i => gfMul
        (gfProd (fun j => if j = i then 1 else gfMul (xs j) (gfInv (xs i ^^^ xs j))) n.toNat) (ys i)) n.toNat,
      busy := false }

/-- 44_interp.md R131: an x of 0x00 among PX[0..N-1] raises X_ZERO, whatever the other points are, and computes nothing. Two
readings here are the model's: that the command goes on past an unwritten entry (log entry 4), and that PX is read up to the
first 0 and no further, so that with the entries before it written nothing else is recorded (log entry 22). -/
def Obligations.InterpWithAZeroXRaisesXZero : Prop :=
  ∀ (n : Count) (k : Nat) (s : State), n.toNat ≤ 256 → k < n.toNat → s.entryAt .px k = some 0 →
    ∃ more d, exec (.interp n) s = .next { s with fault := true, fcode := some .xZero, busy := false,
                                                  record := s.record ++ more ++ [.fault .xZero], draws := d } ∧
      ((∀ i, i < k → s.entryAt .px i ≠ none) → more = [] ∧ d = s.draws)

/-- 44_interp.md R132: two equal x among PX[0..N-1], none of them 0x00, raise DIV_ZERO; with an x of 0x00 the set reports
X_ZERO (the statement about R131). PY is not read. -/
def Obligations.InterpWithARepeatedXRaisesDivZero : Prop :=
  ∀ (n : Count) (xs : Nat → Byte) (i j : Nat) (s : State), n.toNat ≤ 256 →
    (∀ k, k < n.toNat → s.entryAt .px k = some (xs k)) → i < j → j < n.toNat → xs i = xs j →
    ((∀ k, k < n.toNat → xs k ≠ 0) → exec (.interp n) s =
      .next { s with fault := true, fcode := some .divZero, busy := false, record := s.record ++ [.fault .divZero] }) ∧
    ((∃ k, k < n.toNat ∧ xs k = 0) → exec (.interp n) s =
      .next { s with fault := true, fcode := some .xZero, busy := false, record := s.record ++ [.fault .xZero] })

/-- 44_interp.md R130: "N = 256 always faults": among 256 written x-values one is 0 or two are equal. -/
def Obligations.InterpOf256PointsAlwaysFaults : Prop :=
  ∀ (xs : Nat → Byte) (s : State), (∀ k, k < 256 → s.entryAt .px k = some (xs k)) →
    ∃ c, (c = .xZero ∨ c = .divZero) ∧ exec (.interp 256) s =
      .next { s with fault := true, fcode := some c, busy := false, record := s.record ++ [.fault c] }

/-- 44_interp.md R133: the result does not depend on the order of the points in the buffers. -/
def Obligations.InterpIgnoresTheOrderOfPoints : Prop :=
  ∀ (n : Count) (xs ys : Nat → Byte) (p : Nat → Nat) (s t : State), n.toNat ≤ 256 →
    s.Points n.toNat xs ys → ProperPoints n.toNat xs →
    (∀ i, i < n.toNat → p i < n.toNat) → (∀ i j, i < n.toNat → j < n.toNat → p i = p j → i = j) →
    t.Points n.toNat (fun i => xs (p i)) (fun i => ys (p i)) →
    ∃ v, exec (.interp n) s = .next { s with result := v, busy := false } ∧
      exec (.interp n) t = .next { t with result := v, busy := false }

/-- 44_interp.md R134: N points on a polynomial of degree at most d, as EVAL computes it, with N at least d + 1 and
nonzero distinct x, give back its constant term. R134 marks the general law as general knowledge
(93_implementation_defined.md G3; log entry 17, PRESUMED), so here it is a claim about the model's own loops. -/
def Obligations.InterpRecoversTheConstantTerm : Prop :=
  ∀ (n : Count) (d : Nat) (c xs ys : Nat → Byte) (s : State), n.toNat ≤ 256 → d + 1 ≤ n.toNat →
    s.Points n.toNat xs ys → ProperPoints n.toNat xs → (∀ i, i < n.toNat → ys i = horner c (xs i) (d + 1)) →
    exec (.interp n) s = .next { s with result := c 0, busy := false }

/-- 10_state.md R35 and the rule of each command: every command completes from every state, and this is everything it
leaves unchanged. Only WCOEF writes COEF, at IDX; only WPT writes PX and PY, at IDX; RESULT changes only when a command
that returns a value completes without a fault; FAULT and FCODE change only where a command's rule names a fault. -/
def Obligations.EveryCommandCompletesAndKeepsItsFrame : Prop :=
  ∀ (i : Instr) (s : State), ∃ t, exec i s = .next t ∧
    t.busy = false ∧ t.ovr = s.ovr ∧ t.cur = s.cur ∧ t.lost = s.lost ∧ t.agenda = s.agenda ∧ t.lastRead = s.lastRead ∧
    (∀ k, (∀ idx d, i = .wcoef idx d → k ≠ idx.toNat) → t.entryAt .coef k = s.entryAt .coef k) ∧
    (∀ k, (∀ idx x y, i = .wpt idx x y → k ≠ idx.toNat) →
      t.entryAt .px k = s.entryAt .px k ∧ t.entryAt .py k = s.entryAt .py k) ∧
    (t.result = s.result ∨
      (i ≠ .nop ∧ (∀ idx d, i ≠ .wcoef idx d) ∧ (∀ idx x y, i ≠ .wpt idx x y) ∧ t.fault = s.fault ∧ t.fcode = s.fcode)) ∧
    ((t.fault = s.fault ∧ t.fcode = s.fcode) ∨
      (t.fault = true ∧ t.fcode ≠ none ∧
        ((∃ a, i = .div a 0) ∨ (∃ k, i = .alog k) ∨ (∃ x n, i = .eval x n) ∨ ∃ n, i = .interp n))) ∧
    ∃ more, t.record = s.record ++ more

/-- 60_exceptions.md R142: a command that raises a fault sets FAULT and FCODE and clears BUSY; RESULT, every buffer entry,
OVR and CUR keep their values, and the ghost record gains the code (R151). Two clauses are the model's choice: that a command
which read an unwritten entry adds exactly one UNINIT_READ, before its code (log entry 5), and that the counter of free values
may then have moved (log entry 4). -/
def Obligations.FaultEntryChangesNothingElse : Prop :=
  ∀ (i : Instr) (s t : State), s.fault = false → exec i s = .next t → t.fault = true →
    ∃ c more d, (more = [] ∨ more = [.uninitRead]) ∧
      t = { s with fault := true, fcode := some c, busy := false, record := s.record ++ more ++ [.fault c], draws := d }

/-- 60_exceptions.md R143: a command reports the first cause that applies, in the order BAD_LEN or ROM_RANGE, X_ZERO,
DIV_ZERO; ILLEGAL_CMD comes before all of them, since a word that does not decode is no command. The points are assumed
written, since X_ZERO and DIV_ZERO of an unwritten point depend on a free value (log entry 4). -/
def Obligations.FaultCausesInPriorityOrder : Prop :=
  ∀ (i : Instr) (s t : State), s.fcode = none → (∀ n, i = .interp n → n.toNat ≤ 256 → ∀ k, k < n.toNat → s.entryAt .px k ≠ none) →
    exec i s = .next t →
    t.fcode ≠ some .illegalCmd ∧
    (t.fcode = some .badLen ↔ (∃ x n, i = .eval x n ∧ 256 < n.toNat) ∨ ∃ n, i = .interp n ∧ 256 < n.toNat) ∧
    (t.fcode = some .romRange ↔ ∃ k, i = .alog k ∧ 509 < k.toNat) ∧
    (t.fcode = some .xZero ↔ ∃ n, i = .interp n ∧ n.toNat ≤ 256 ∧ ∃ k, k < n.toNat ∧ s.entryAt .px k = some 0) ∧
    (t.fcode = some .divZero ↔ (∃ a, i = .div a 0) ∨
      ∃ n, i = .interp n ∧ n.toNat ≤ 256 ∧ (∀ k, k < n.toNat → s.entryAt .px k ≠ some 0) ∧
        ∃ j k, j < k ∧ k < n.toNat ∧ s.entryAt .px j = s.entryAt .px k)

/-- 10_state.md R27: what a host write of CMD does, its conditions in the rule's order, and what a read of CMD returns. That a
word dropped while BUSY = 1 is kept in the ghost list `lost` is the model's choice (log entry 13, which
93_implementation_defined.md U-15 allows); R27 only discards it. -/
def Obligations.CmdWritesFollowTheAcceptanceRule : Prop :=
  ∀ (w : Word) (s : State),
    (s.nextTurn = .host (.writeOf .cmd w) →
      (s.fault = true → step s = .next { s with agenda := s.agenda.tail }) ∧
      (s.fault = false → s.busy = true →
        step s = .next { s with ovr := true, lost := s.lost ++ [w], agenda := s.agenda.tail }) ∧
      (s.fault = false → s.busy = false →
        step s = .next { s with cur := w, busy := true, agenda := s.agenda.tail })) ∧
    (s.nextTurn = .host (.readOf .cmd) →
      step s = .next { s with lastRead := some 0x00000000, agenda := s.agenda.tail })

/-- 10_state.md R33: CLRF clears FAULT, FCODE and OVR; bits 31:1 have no effect; a read of CTRL returns 0; nothing else is
touched, and a command in flight goes on. -/
def Obligations.CtrlWritesClearTheStickyBits : Prop :=
  ∀ (v : Word) (s : State),
    (s.nextTurn = .host (.writeOf .ctrl v) →
      (v.getLsbD 0 = true →
        step s = .next { s with fault := false, fcode := none, ovr := false, agenda := s.agenda.tail }) ∧
      (v.getLsbD 0 = false → step s = .next { s with agenda := s.agenda.tail })) ∧
    (s.nextTurn = .host (.readOf .ctrl) →
      step s = .next { s with lastRead := some 0x00000000, agenda := s.agenda.tail })

/-- 10_state.md R29 and 60_exceptions.md R140: the bits a read of STATUS returns, with no side effect, and a write to STATUS
is ignored; the reset value is 0. -/
def Obligations.StatusReadsItsFields : Prop :=
  ∀ s : State,
    (s.nextTurn = .host (.readOf .status) → ∃ w : Word,
      step s = .next { s with lastRead := some w, agenda := s.agenda.tail } ∧
      w.getLsbD 0 = s.busy ∧ w.getLsbD 1 = s.fault ∧ w.getLsbD 2 = s.ovr ∧ w.getLsbD 3 = false ∧
      w.extractLsb' 8 24 = 0 ∧
      w.extractLsb' 4 4 =
        match s.fcode with
        | none => 0x0
        | some .illegalCmd => 0x1
        | some .badLen => 0x2
        | some .romRange => 0x3
        | some .xZero => 0x4
        | some .divZero => 0x5) ∧
    (∀ v : Word, s.nextTurn = .host (.writeOf .status v) → step s = .next { s with agenda := s.agenda.tail }) ∧
    State.reset.statusWord = 0x00000000

/-- 10_state.md R28 and 70_reset_and_hazards.md R176: a read of RESULT while BUSY = 0 returns RES zero-extended; while
BUSY = 1 it returns some 32-bit value, with no effect on the command in flight. A write to RESULT is ignored. -/
def Obligations.ResultReadsAndWrites : Prop :=
  ∀ s : State,
    (s.nextTurn = .host (.readOf .result) →
      (s.busy = false → ∃ w : Word, step s = .next { s with lastRead := some w, agenda := s.agenda.tail } ∧
        w.toNat = s.result.toNat) ∧
      (s.busy = true → ∃ w : Word,
        step s = .next { s with lastRead := some w, draws := s.draws + 1, agenda := s.agenda.tail })) ∧
    ∀ v : Word, s.nextTurn = .host (.writeOf .result v) → step s = .next { s with agenda := s.agenda.tail }

/-- 20_memory.md R42: an access that touches the window is served exactly when it is one naturally aligned 32-bit access;
any other is refused. That the refusal carries the ghost record with the refusal marked in it (60_exceptions.md R151), and
that an access which does not touch the window changes nothing (93_implementation_defined.md U-8), are the model's readings
(log entries 6 and 7). -/
def Obligations.OnlyAlignedWordAccessesAreServed : Prop :=
  ∀ (a : Access) (s : State), s.nextTurn = .host a →
    (0 < a.bytes * a.beats ∧ a.addr < Config.base + 16 ∧ Config.base < a.addr + a.bytes * a.beats →
      (a.bytes = 4 ∧ a.beats = 1 ∧ a.addr % 4 = 0 → ∃ t, step s = .next t) ∧
      (¬(a.bytes = 4 ∧ a.beats = 1 ∧ a.addr % 4 = 0) →
        step s = .refused (.illegalAccess a (s.record ++ [.refusedAccess])))) ∧
    (¬(0 < a.bytes * a.beats ∧ a.addr < Config.base + 16 ∧ Config.base < a.addr + a.bytes * a.beats) →
      step s = .next { s with agenda := s.agenda.tail })

/-- 20_memory.md R40 and R43: BASE is a multiple of 16, byte k of a word carries its bits [8k+7:8k], and the four bytes give
the word back. -/
def Obligations.ByteLanesAreLittleEndian : Prop :=
  Config.base % 16 = 0 ∧
  ∀ w : Word, (∀ k i, k < 4 → i < 8 → (byteLane w k).getLsbD i = w.getLsbD (8 * k + i)) ∧
    wordOfBytes (byteLane w 0) (byteLane w 1) (byteLane w 2) (byteLane w 3) = w

/-- 20_memory.md R48, its fourth rule: nothing the host does while a command is in flight changes the word, the operands or
the result of that command, however many accesses it makes. -/
def Obligations.InFlightCommandIsProtected : Prop :=
  ∀ (k : Nat) (s m : State), s.Inv → s.busy = true →
    (∀ j, j < k → ∃ a, s.agenda[j]? = some (.host a)) → Reaches k s m →
    m.busy = true ∧ m.fault = false ∧ m.fcode = s.fcode ∧ m.cur = s.cur ∧ m.result = s.result ∧ m.record = s.record ∧
      ∀ b i, m.entryAt b i = s.entryAt b i

/-- 70_reset_and_hazards.md R178 and 10_state.md R30 and R35: an accepted command completes. Whatever host accesses come first,
legal or outside the window, they leave the command in flight, its word and its operands; the block's turn after them is its
completion, with its effects made and BUSY back to 0 (00_scope.md R9). If a reset comes first, the command is abandoned with
none of its effects (R170). The bound, one step for each access and one for the completion, is the length of the model's
agenda up to the block's turn (log entries 1 and 9). -/
def Obligations.AcceptedCommandCompletes : Prop :=
  ∀ (hosts : List Access) (rest : List Turn) (s : State), s.busy = true → s.agenda = hosts.map Turn.host ++ rest →
    (∀ a ∈ hosts, a.target ≠ none ∨ a.touchesWindow = false) →
    ∃ m, Reaches hosts.length s m ∧ m.busy = true ∧ m.cur = s.cur ∧ m.result = s.result ∧ m.agenda = rest ∧
      (∀ b i, m.entryAt b i = s.entryAt b i) ∧
      (rest.headD .block = .block → ∃ t, step m = .next t ∧ t.busy = false ∧
        (∀ i, decode s.cur = .ok i → exec i m.popTurn = .next t) ∧
        ((∀ i, decode s.cur ≠ .ok i) → t = { m with fault := true, fcode := some .illegalCmd, busy := false,
                                                    record := m.record ++ [.fault .illegalCmd], agenda := rest.tail })) ∧
      (rest.headD .block = .reset → ∃ t, step m = .next t ∧ t.busy = false ∧ t.fault = false ∧ t.result = 0 ∧
        ∀ b i, t.entryAt b i = none)

/-- 60_exceptions.md R145 and 70_reset_and_hazards.md R175: while FAULT = 1 no command is accepted; through any run with no
CLRF write and no reset, FAULT, FCODE, OVR, RESULT and every buffer entry stay. That BUSY = 0 then holds is the invariant's
(10_state.md R30). -/
def Obligations.FaultBlocksEveryCommand : Prop :=
  ∀ (k : Nat) (s t : State), s.fault = true → s.busy = false →
    (∀ u ∈ s.agenda, u ≠ .reset ∧ ∀ a v, u = .host a → a.transfer = .write v → a.target = some .ctrl →
      v.getLsbD 0 = false) →
    Reaches k s t →
    t.fault = true ∧ t.fcode = s.fcode ∧ t.busy = false ∧ t.ovr = s.ovr ∧ t.cur = s.cur ∧ t.result = s.result ∧
      t.record = s.record ∧ ∀ b i, t.entryAt b i = s.entryAt b i

/-- 10_state.md R31: FAULT and FCODE are written together, only at a completion; they are cleared together, only by a CTRL
write with bit 0 = 1 or by reset; while FAULT = 1 a write to CMD has no effect. -/
def Obligations.FaultAndFcodeChangeTogether : Prop :=
  ∀ s t : State, s.Inv → step s = .next t →
    (s.fault = false → t.fault = true → s.nextTurn = .block ∧ s.busy = true ∧ t.busy = false ∧ t.fcode ≠ none) ∧
    (s.fault = true → t.fault = false → t.fcode = none ∧
      (s.nextTurn = .reset ∨ ∃ a v, s.nextTurn = .host a ∧ a.target = some .ctrl ∧ a.transfer = .write v ∧
        v.getLsbD 0 = true)) ∧
    (s.fault = t.fault → s.fcode = t.fcode) ∧
    (s.fault = true → ∀ a v, s.nextTurn = .host a → a.target = some .cmd → a.transfer = .write v →
      t = { s with agenda := s.agenda.tail })

/-- 10_state.md R30: BUSY is set only when a CMD write is accepted and cleared only when that command completes or by
reset. -/
def Obligations.BusyChangesOnlyAtAcceptanceAndCompletion : Prop :=
  ∀ s t : State, step s = .next t →
    (s.busy = false → t.busy = true → s.fault = false ∧
      ∃ a w, s.nextTurn = .host a ∧ a.target = some .cmd ∧ a.transfer = .write w ∧ t.cur = w) ∧
    (s.busy = true → t.busy = false → s.nextTurn = .block ∨ s.nextTurn = .reset) ∧
    (s.busy = true → s.nextTurn = .block → t.busy = false)

/-- 10_state.md R32: OVR is set only by a CMD write while BUSY = 1 and FAULT = 0, and is cleared only by a CTRL write with
bit 0 = 1 or by reset; it is no fault, and with it set a ready block still accepts a command. -/
def Obligations.OvrChangesOnlyAsItsRuleSays : Prop :=
  ∀ s t : State, step s = .next t →
    (s.ovr = false → t.ovr = true → s.busy = true ∧ s.fault = false ∧ t.fault = false ∧
      ∃ a w, s.nextTurn = .host a ∧ a.target = some .cmd ∧ a.transfer = .write w) ∧
    (s.busy = true → s.fault = false → ∀ a w, s.nextTurn = .host a → a.target = some .cmd → a.transfer = .write w →
      t.ovr = true) ∧
    (s.ovr = true → t.ovr = false → s.nextTurn = .reset ∨
      ∃ a v, s.nextTurn = .host a ∧ a.target = some .ctrl ∧ a.transfer = .write v ∧ v.getLsbD 0 = true) ∧
    (s.ovr = true → s.Ready → ∀ a w, s.nextTurn = .host a → a.target = some .cmd → a.transfer = .write w →
      t.busy = true ∧ t.cur = w)

/-- 10_state.md R25, R26 and R28: apart from reset, COEF changes only by a completing WCOEF, PX and PY only by a completing
WPT, and RESULT only by a completion that raises no fault. -/
def Obligations.BuffersAndResultChangeOnlyAtCompletion : Prop :=
  ∀ s t : State, step s = .next t → s.nextTurn ≠ .reset →
    (∀ k, t.entryAt .coef k ≠ s.entryAt .coef k → s.nextTurn = .block ∧ s.busy = true ∧
      ∃ idx d, decode s.cur = .ok (.wcoef idx d) ∧ k = idx.toNat) ∧
    (∀ k, t.entryAt .px k ≠ s.entryAt .px k ∨ t.entryAt .py k ≠ s.entryAt .py k →
      s.nextTurn = .block ∧ s.busy = true ∧ ∃ idx x y, decode s.cur = .ok (.wpt idx x y) ∧ k = idx.toNat) ∧
    (t.result ≠ s.result → s.nextTurn = .block ∧ s.busy = true ∧ t.fault = s.fault ∧ t.fcode = s.fcode)

/-- 60_exceptions.md R151: through any run without a reset the ghost record only grows, and every fault STATUS comes to show
is in it, whatever CLRF does; a run whose record shows no fault showed none in STATUS at its start or its end. That "no fault"
counts the codes of FCODE and not UNINIT_READ is the model's choice (log entry 24). -/
def Obligations.GhostRecordKeepsEveryFault : Prop :=
  ∀ (k : Nat) (s t : State), s.Inv → Turn.reset ∉ s.agenda → Reaches k s t →
    s.record <+: t.record ∧ (∀ c, t.fcode = some c → Recorded.fault c ∈ t.record) ∧
      (t.NoCommandFaulted → s.fault = false ∧ t.fault = false)

/-- 70_reset_and_hazards.md R170: the invariant holds in the state after reset. -/
def Obligations.InvariantHoldsAtReset : Prop := State.reset.Inv

/-- 10_state.md R30, R31, R26, 70_reset_and_hazards.md R173 and 60_exceptions.md R151: every step keeps the invariant.
BUSY and FAULT never hold together, FCODE goes with FAULT, the buffers keep their canonical form (the model's, log entry
19), PX and PY have the same entries written, OVR means a lost command, and a shown fault is recorded. -/
def Obligations.EveryStepKeepsTheInvariant : Prop :=
  ∀ s t : State, s.Inv → step s = .next t → t.Inv

/-- 10_state.md R34 and 70_reset_and_hazards.md R170: CUR is never read while BUSY = 0, so no step from such a state depends
on it: another CUR gives the same step, but for CUR itself until a command is accepted. -/
def Obligations.CurIsNeverReadWhileIdle : Prop :=
  ∀ (s : State) (w : Word), s.busy = false →
    (∀ t, step s = .next t →
      ∃ u, step { s with cur := w } = .next { t with cur := u } ∧ (t.busy = true → u = t.cur)) ∧
    ∀ r, step s = .refused r → step { s with cur := w } = .refused r

/-- 30_encoding.md R70: the three pseudo-instructions, the one command each expands to, and its result. -/
def Obligations.PseudoInstructionsExpandToOneCommand : Prop :=
  ∀ (b : Byte) (s : State),
    (assemble (.inv b.toNat) = some (.div 0x01 b) ∧
      (b ≠ 0 → ∃ v, exec (.div 0x01 b) s = .next { s with result := v, busy := false } ∧ gfMul b v = 1) ∧
      (b = 0 → exec (.div 0x01 b) s = .next { s with fault := true, fcode := some .divZero, busy := false,
                                                     record := s.record ++ [.fault .divZero] })) ∧
    (assemble (.ldi b.toNat) = some (.add b 0x00) ∧
      exec (.add b 0x00) s = .next { s with result := b, busy := false }) ∧
    assemble (.sqr b.toNat) = some (.mul b b) ∧
      exec (.mul b b) s = .next { s with result := clmulMod b b, busy := false }

/-- 30_encoding.md R69: the words of the assembler's spellings, as sums of the fields' places, and the refusal of an operand
that does not fit its field, in the lines of R70 too. -/
def Obligations.AssemblerWordsAndRefusals : Prop :=
  ∀ a b c : Nat,
    (a < 256 → b < 256 →
      (assemble (.add a b)).map (fun i => (encode i).toNat) = some (1 + a * 2 ^ 8 + b * 2 ^ 16) ∧
      (assemble (.sub a b)).map (fun i => (encode i).toNat) = some (2 + a * 2 ^ 8 + b * 2 ^ 16) ∧
      (assemble (.mul a b)).map (fun i => (encode i).toNat) = some (3 + a * 2 ^ 8 + b * 2 ^ 16) ∧
      (assemble (.div a b)).map (fun i => (encode i).toNat) = some (4 + a * 2 ^ 8 + b * 2 ^ 16) ∧
      (assemble (.log a)).map (fun i => (encode i).toNat) = some (5 + a * 2 ^ 8) ∧
      (assemble (.wcoef a b)).map (fun i => (encode i).toNat) = some (7 + b * 2 ^ 8 + a * 2 ^ 24) ∧
      (assemble (.rcoef a)).map (fun i => (encode i).toNat) = some (9 + a * 2 ^ 24) ∧
      (assemble (.rpx a)).map (fun i => (encode i).toNat) = some (10 + a * 2 ^ 24) ∧
      (assemble (.rpy a)).map (fun i => (encode i).toNat) = some (11 + a * 2 ^ 24) ∧
      (c < 256 →
        (assemble (.wpt a b c)).map (fun i => (encode i).toNat) = some (8 + b * 2 ^ 8 + c * 2 ^ 16 + a * 2 ^ 24)) ∧
      (c < 512 →
        (assemble (.alog c)).map (fun i => (encode i).toNat) = some (6 + c * 2 ^ 16) ∧
        (assemble (.eval a c)).map (fun i => (encode i).toNat) = some (12 + a * 2 ^ 8 + c * 2 ^ 16) ∧
        (assemble (.interp c)).map (fun i => (encode i).toNat) = some (13 + c * 2 ^ 16))) ∧
    (assemble .nop).map (fun i => (encode i).toNat) = some 0 ∧
    (256 ≤ a ∨ 256 ≤ b →
      assemble (.add a b) = none ∧ assemble (.sub a b) = none ∧ assemble (.mul a b) = none ∧
      assemble (.div a b) = none ∧ assemble (.wcoef a b) = none ∧ assemble (.wpt a b c) = none) ∧
    (256 ≤ a → assemble (.log a) = none ∧ assemble (.rcoef a) = none ∧ assemble (.rpx a) = none ∧
      assemble (.rpy a) = none ∧ assemble (.eval a c) = none ∧ assemble (.inv a) = none ∧ assemble (.ldi a) = none ∧
      assemble (.sqr a) = none) ∧
    (256 ≤ c → assemble (.wpt a b c) = none) ∧
    (512 ≤ c → assemble (.alog c) = none ∧ assemble (.eval a c) = none ∧ assemble (.interp c) = none)
end

