-- ==== Sys2Proof/Laws/PerInstr.lean ====
section
/-! SUPPORT. A fact about every command as a term, one lemma per constructor: its word meets the match and mask of its own
row (30_encoding.md R65). -/

namespace Sys2Proof.Laws.RowMatch

/-- The match and mask of a command's row, from the table of 30_encoding.md R65. -/
def row : Instr → Word × Word
  | .nop => (0x00000000, 0xFFFFFFFF)
  | .add _ _ => (0x00000001, 0xFF0000FF)
  | .sub _ _ => (0x00000002, 0xFF0000FF)
  | .mul _ _ => (0x00000003, 0xFF0000FF)
  | .div _ _ => (0x00000004, 0xFF0000FF)
  | .log _ => (0x00000005, 0xFFFF00FF)
  | .alog _ => (0x00000006, 0xFE00FFFF)
  | .wcoef _ _ => (0x00000007, 0x00FF00FF)
  | .wpt _ _ _ => (0x00000008, 0x000000FF)
  | .rcoef _ => (0x00000009, 0x00FFFFFF)
  | .rpx _ => (0x0000000A, 0x00FFFFFF)
  | .rpy _ => (0x0000000B, 0x00FFFFFF)
  | .eval _ _ => (0x0000000C, 0xFE0000FF)
  | .interp _ => (0x0000000D, 0xFE00FFFF)

/-- "a word w is that command when (w & mask) = match" holds of the word of the command. -/
def Statement (i : Instr) : Prop := encode i &&& (row i).2 = (row i).1

/-- Two words are equal when their thirty-two bits are. -/
theorem eq_of_bits {x y : Word} (h : ∀ k : Fin 32, x.getLsbD k = y.getLsbD k) : x = y :=
  BitVec.eq_of_getLsbD_eq fun k hk => h ⟨k, hk⟩

theorem nop : Statement .nop := by
  unfold Statement
  decide

theorem add (a b : Byte) : Statement (.add a b) := by
  refine eq_of_bits fun k => ?_
  fin_cases k <;> simp [encode, row, fieldsWord, placeAt]

theorem sub (a b : Byte) : Statement (.sub a b) := by
  refine eq_of_bits fun k => ?_
  fin_cases k <;> simp [encode, row, fieldsWord, placeAt]

theorem mul (a b : Byte) : Statement (.mul a b) := by
  refine eq_of_bits fun k => ?_
  fin_cases k <;> simp [encode, row, fieldsWord, placeAt]

theorem div (a b : Byte) : Statement (.div a b) := by
  refine eq_of_bits fun k => ?_
  fin_cases k <;> simp [encode, row, fieldsWord, placeAt]

theorem log (a : Byte) : Statement (.log a) := by
  refine eq_of_bits fun k => ?_
  fin_cases k <;> simp [encode, row, fieldsWord, placeAt]

theorem alog (i : Count) : Statement (.alog i) := by
  refine eq_of_bits fun k => ?_
  fin_cases k <;> simp [encode, row, countWord, placeAt]

theorem wcoef (idx d : Byte) : Statement (.wcoef idx d) := by
  refine eq_of_bits fun k => ?_
  fin_cases k <;> simp [encode, row, fieldsWord, placeAt]

theorem wpt (idx x y : Byte) : Statement (.wpt idx x y) := by
  refine eq_of_bits fun k => ?_
  fin_cases k <;> simp [encode, row, fieldsWord, placeAt]

theorem rcoef (idx : Byte) : Statement (.rcoef idx) := by
  refine eq_of_bits fun k => ?_
  fin_cases k <;> simp [encode, row, fieldsWord, placeAt]

theorem rpx (idx : Byte) : Statement (.rpx idx) := by
  refine eq_of_bits fun k => ?_
  fin_cases k <;> simp [encode, row, fieldsWord, placeAt]

theorem rpy (idx : Byte) : Statement (.rpy idx) := by
  refine eq_of_bits fun k => ?_
  fin_cases k <;> simp [encode, row, fieldsWord, placeAt]

theorem eval (x : Byte) (n : Count) : Statement (.eval x n) := by
  refine eq_of_bits fun k => ?_
  fin_cases k <;> simp [encode, row, countWord, placeAt]

theorem interp (n : Count) : Statement (.interp n) := by
  refine eq_of_bits fun k => ?_
  fin_cases k <;> simp [encode, row, countWord, placeAt]

end Sys2Proof.Laws.RowMatch
end

