-- ==== Sys2Proof/Laws/Decode.lean ====
section
/-! SUPPORT. The fields of the words the encoder builds, and what the match of a row says about OP. -/

namespace Sys2Proof

/-- Fields are equal when their bits are. -/
theorem field_eq_of_bits {n : Nat} {x y : BitVec n} (h : ∀ k : Fin n, x.getLsbD k = y.getLsbD k) : x = y :=
  BitVec.eq_of_getLsbD_eq fun k hk => h ⟨k, hk⟩

section Fields

variable (op : BitVec 4) (f1 f2 f3 : Byte) (nf : Count)

@[simp] theorem opOf_fieldsWord : opOf (fieldsWord op f1 f2 f3) = op := by
  refine field_eq_of_bits fun k => ?_
  fin_cases k <;> simp [opOf, fieldAt, fieldsWord, placeAt]

@[simp] theorem rsvOf_fieldsWord : rsvOf (fieldsWord op f1 f2 f3) = 0 := by
  refine field_eq_of_bits fun k => ?_
  fin_cases k <;> simp [rsvOf, fieldAt, fieldsWord, placeAt]

@[simp] theorem f1Of_fieldsWord : f1Of (fieldsWord op f1 f2 f3) = f1 := by
  refine field_eq_of_bits fun k => ?_
  fin_cases k <;> simp [f1Of, fieldAt, fieldsWord, placeAt]

@[simp] theorem f2Of_fieldsWord : f2Of (fieldsWord op f1 f2 f3) = f2 := by
  refine field_eq_of_bits fun k => ?_
  fin_cases k <;> simp [f2Of, fieldAt, fieldsWord, placeAt]

@[simp] theorem f3Of_fieldsWord : f3Of (fieldsWord op f1 f2 f3) = f3 := by
  refine field_eq_of_bits fun k => ?_
  fin_cases k <;> simp [f3Of, fieldAt, fieldsWord, placeAt]

@[simp] theorem opOf_countWord : opOf (countWord op f1 nf) = op := by
  refine field_eq_of_bits fun k => ?_
  fin_cases k <;> simp [opOf, fieldAt, countWord, placeAt]

@[simp] theorem rsvOf_countWord : rsvOf (countWord op f1 nf) = 0 := by
  refine field_eq_of_bits fun k => ?_
  fin_cases k <;> simp [rsvOf, fieldAt, countWord, placeAt]

@[simp] theorem f1Of_countWord : f1Of (countWord op f1 nf) = f1 := by
  refine field_eq_of_bits fun k => ?_
  fin_cases k <;> simp [f1Of, fieldAt, countWord, placeAt]

@[simp] theorem nfOf_countWord : nfOf (countWord op f1 nf) = nf := by
  refine field_eq_of_bits fun k => ?_
  fin_cases k <;> simp [nfOf, fieldAt, countWord, placeAt]

end Fields

/-- The four lanes of a word give the word back (20_memory.md R43). -/
theorem wordOfBytes_lanes (w : Word) :
    wordOfBytes (byteLane w 0) (byteLane w 1) (byteLane w 2) (byteLane w 3) = w := by
  refine Laws.RowMatch.eq_of_bits fun k => ?_
  fin_cases k <;> simp [wordOfBytes, byteLane, fieldAt, placeAt]

/-- Every mask of the opcode map includes bits 3:0, so the row that admits a word has its OP (30_encoding.md R65). -/
theorem opOf_of_admits {r : OpRow} (hr : r ∈ opRows) {w : Word} (h : r.admits w = true) : opOf w = opOf r.pattern := by
  have hm : opOf r.mask = 0xF := by
    simp only [opRows, List.mem_cons, List.not_mem_nil, or_false] at hr
    rcases hr with rfl | rfl | rfl | rfl | rfl | rfl | rfl | rfl | rfl | rfl | rfl | rfl | rfl | rfl <;> decide
  have hw : w &&& r.mask = r.pattern := by simpa [OpRow.admits] using h
  rw [← hw]
  have hand : opOf (w &&& r.mask) = opOf w &&& opOf r.mask := by simp [opOf, fieldAt, BitVec.extractLsb'_and]
  rw [hand, hm]
  exact (BitVec.and_allOnes (x := opOf w)).symm

end Sys2Proof
end

