-- ==== Sys2Proof/Laws/Memory.lean ====
section
/-! SUPPORT. What a buffer's read and write do, and that a write keeps the canonical form. -/

namespace Sys2Proof.Machine.Memory

@[simp] theorem read_nil (i : Nat) : read [] i = none := rfl

theorem read_cons (j : Nat) (v : Byte) (m : List Host.Cell) (i : Nat) :
    read ((j, v) :: m) i = if i = j then some v else read m i := rfl

theorem read_write_same (m : List Host.Cell) (i : Nat) (v : Byte) : read (write m i v) i = some v := by
  induction m with
  | nil => simp [write, read]
  | cons c m ih =>
    obtain ⟨j, u⟩ := c
    simp only [write]
    split
    · simp [read]
    · split
      · simp [read]
      · rename_i h
        simp [read, h, ih]

theorem read_write_other (m : List Host.Cell) (i k : Nat) (v : Byte) (h : k ≠ i) : read (write m i v) k = read m k := by
  induction m with
  | nil => simp [write, read, h]
  | cons c m ih =>
    obtain ⟨j, u⟩ := c
    simp only [write]
    split
    · simp [read, h]
    · split
      · subst_vars
        simp [read, h]
      · simp [read, ih]

theorem rising_write (m : List Host.Cell) (lo hi i : Nat) (v : Byte) (hlo : lo ≤ i) (hhi : i < hi)
    (h : rising lo hi m = true) : rising lo hi (write m i v) = true := by
  induction m generalizing lo with
  | nil => simp [write, rising, hlo, hhi]
  | cons c m ih =>
    obtain ⟨j, u⟩ := c
    simp only [rising, Bool.and_eq_true, decide_eq_true_eq] at h
    obtain ⟨⟨hj, hjhi⟩, hm⟩ := h
    simp only [write]
    split
    · simp only [rising, Bool.and_eq_true, decide_eq_true_eq]
      exact ⟨⟨hlo, hhi⟩, ⟨by omega, hjhi⟩, hm⟩
    · split
      · subst_vars
        simp only [rising, Bool.and_eq_true, decide_eq_true_eq]
        exact ⟨⟨hlo, hhi⟩, hm⟩
      · simp only [rising, Bool.and_eq_true, decide_eq_true_eq]
        exact ⟨⟨hj, hjhi⟩, ih (j + 1) (by omega) hm⟩

/-- A write of a buffer entry keeps the canonical form. -/
theorem wf_write (m : List Host.Cell) (idx : Byte) (v : Byte) (h : wf m = true) : wf (write m idx.toNat v) = true :=
  rising_write m 0 256 idx.toNat v (Nat.zero_le _) idx.isLt h

/-- Which indexes a write leaves written depends only on which were. -/
theorem keys_write (m q : List Host.Cell) (i : Nat) (u v : Byte) (h : m.map Prod.fst = q.map Prod.fst) :
    (write m i u).map Prod.fst = (write q i v).map Prod.fst := by
  induction m generalizing q with
  | nil =>
    cases q with
    | nil => rfl
    | cons d q => simp at h
  | cons c m ih =>
    cases q with
    | nil => simp at h
    | cons d q =>
      obtain ⟨j, a⟩ := c
      obtain ⟨k, b⟩ := d
      simp only [List.map_cons, List.cons.injEq] at h
      obtain ⟨rfl, h⟩ := h
      simp only [write]
      split
      · simp [h]
      · split
        · simp [h]
        · simp [ih q h]

theorem read_of_rising_lt (m : List Host.Cell) (lo hi i : Nat) (h : rising lo hi m = true) (hi' : i < lo) : read m i = none := by
  induction m generalizing lo with
  | nil => rfl
  | cons c m ih =>
    obtain ⟨j, u⟩ := c
    simp only [rising, Bool.and_eq_true, decide_eq_true_eq] at h
    rw [read_cons, if_neg (by omega)]
    exact ih (j + 1) h.2 (by omega)

/-- Two canonical buffers that read alike are equal data. -/
theorem rising_ext (m q : List Host.Cell) (lo hi : Nat) (hm : rising lo hi m = true) (hq : rising lo hi q = true)
    (h : ∀ i, read m i = read q i) : m = q := by
  induction m generalizing q lo with
  | nil =>
    cases q with
    | nil => rfl
    | cons d q =>
      obtain ⟨k, v⟩ := d
      have := h k
      simp [read_cons] at this
  | cons c m ih =>
    obtain ⟨j, u⟩ := c
    cases q with
    | nil =>
      have := h j
      simp [read_cons] at this
    | cons d q =>
      obtain ⟨k, v⟩ := d
      simp only [rising, Bool.and_eq_true, decide_eq_true_eq] at hm hq
      have hjk : j = k := by
        have h1 := h j
        have h2 := h k
        rw [read_cons, read_cons, if_pos rfl] at h1
        rw [read_cons, read_cons, if_pos rfl] at h2
        by_contra hne
        rw [if_neg hne] at h1
        rw [if_neg (Ne.symm hne)] at h2
        by_cases hlt : j < k
        · rw [read_of_rising_lt q (k + 1) hi j hq.2 (by omega)] at h1
          simp at h1
        · rw [read_of_rising_lt m (j + 1) hi k hm.2 (by omega)] at h2
          simp at h2
      subst hjk
      have huv : u = v := by
        have h1 := h j
        simpa [read_cons] using h1
      subst huv
      have hrest : m = q := by
        refine ih q (j + 1) hm.2 hq.2 fun i => ?_
        by_cases hi' : i = j
        · subst hi'
          rw [read_of_rising_lt m (i + 1) hi i hm.2 (by omega), read_of_rising_lt q (i + 1) hi i hq.2 (by omega)]
        · have h1 := h i
          rwa [read_cons, read_cons, if_neg hi', if_neg hi'] at h1
      rw [hrest]

end Sys2Proof.Machine.Memory
end

