-- ==== Sys2Proof/Laws/State.lean ====
section
/-! SUPPORT. One lemma per field of State per update of it, true by rfl, so that no proof unfolds an update. -/

namespace Sys2Proof.Machine

variable (s : State)

@[simp] theorem clearBusy_coef : (clearBusy s).coef = s.coef := rfl
@[simp] theorem clearBusy_px : (clearBusy s).px = s.px := rfl
@[simp] theorem clearBusy_py : (clearBusy s).py = s.py := rfl
@[simp] theorem clearBusy_result : (clearBusy s).result = s.result := rfl
@[simp] theorem clearBusy_busy : (clearBusy s).busy = false := rfl
@[simp] theorem clearBusy_fault : (clearBusy s).fault = s.fault := rfl
@[simp] theorem clearBusy_ovr : (clearBusy s).ovr = s.ovr := rfl
@[simp] theorem clearBusy_fcode : (clearBusy s).fcode = s.fcode := rfl
@[simp] theorem clearBusy_cur : (clearBusy s).cur = s.cur := rfl
@[simp] theorem clearBusy_record : (clearBusy s).record = s.record := rfl
@[simp] theorem clearBusy_lost : (clearBusy s).lost = s.lost := rfl
@[simp] theorem clearBusy_agenda : (clearBusy s).agenda = s.agenda := rfl
@[simp] theorem clearBusy_lastRead : (clearBusy s).lastRead = s.lastRead := rfl
@[simp] theorem clearBusy_draws : (clearBusy s).draws = s.draws := rfl

@[simp] theorem setBusy_coef (w : Word) : (setBusy w s).coef = s.coef := rfl
@[simp] theorem setBusy_px (w : Word) : (setBusy w s).px = s.px := rfl
@[simp] theorem setBusy_py (w : Word) : (setBusy w s).py = s.py := rfl
@[simp] theorem setBusy_result (w : Word) : (setBusy w s).result = s.result := rfl
@[simp] theorem setBusy_busy (w : Word) : (setBusy w s).busy = true := rfl
@[simp] theorem setBusy_fault (w : Word) : (setBusy w s).fault = s.fault := rfl
@[simp] theorem setBusy_ovr (w : Word) : (setBusy w s).ovr = s.ovr := rfl
@[simp] theorem setBusy_fcode (w : Word) : (setBusy w s).fcode = s.fcode := rfl
@[simp] theorem setBusy_cur (w : Word) : (setBusy w s).cur = w := rfl
@[simp] theorem setBusy_record (w : Word) : (setBusy w s).record = s.record := rfl
@[simp] theorem setBusy_lost (w : Word) : (setBusy w s).lost = s.lost := rfl
@[simp] theorem setBusy_agenda (w : Word) : (setBusy w s).agenda = s.agenda := rfl
@[simp] theorem setBusy_lastRead (w : Word) : (setBusy w s).lastRead = s.lastRead := rfl
@[simp] theorem setBusy_draws (w : Word) : (setBusy w s).draws = s.draws := rfl

@[simp] theorem setFault_coef (c : FaultCode) : (setFault c s).coef = s.coef := rfl
@[simp] theorem setFault_px (c : FaultCode) : (setFault c s).px = s.px := rfl
@[simp] theorem setFault_py (c : FaultCode) : (setFault c s).py = s.py := rfl
@[simp] theorem setFault_result (c : FaultCode) : (setFault c s).result = s.result := rfl
@[simp] theorem setFault_busy (c : FaultCode) : (setFault c s).busy = s.busy := rfl
@[simp] theorem setFault_fault (c : FaultCode) : (setFault c s).fault = true := rfl
@[simp] theorem setFault_ovr (c : FaultCode) : (setFault c s).ovr = s.ovr := rfl
@[simp] theorem setFault_fcode (c : FaultCode) : (setFault c s).fcode = some c := rfl
@[simp] theorem setFault_cur (c : FaultCode) : (setFault c s).cur = s.cur := rfl
@[simp] theorem setFault_record (c : FaultCode) : (setFault c s).record = s.record := rfl
@[simp] theorem setFault_lost (c : FaultCode) : (setFault c s).lost = s.lost := rfl
@[simp] theorem setFault_agenda (c : FaultCode) : (setFault c s).agenda = s.agenda := rfl
@[simp] theorem setFault_lastRead (c : FaultCode) : (setFault c s).lastRead = s.lastRead := rfl
@[simp] theorem setFault_draws (c : FaultCode) : (setFault c s).draws = s.draws := rfl

@[simp] theorem clearFlags_coef : (clearFlags s).coef = s.coef := rfl
@[simp] theorem clearFlags_px : (clearFlags s).px = s.px := rfl
@[simp] theorem clearFlags_py : (clearFlags s).py = s.py := rfl
@[simp] theorem clearFlags_result : (clearFlags s).result = s.result := rfl
@[simp] theorem clearFlags_busy : (clearFlags s).busy = s.busy := rfl
@[simp] theorem clearFlags_fault : (clearFlags s).fault = false := rfl
@[simp] theorem clearFlags_ovr : (clearFlags s).ovr = false := rfl
@[simp] theorem clearFlags_fcode : (clearFlags s).fcode = none := rfl
@[simp] theorem clearFlags_cur : (clearFlags s).cur = s.cur := rfl
@[simp] theorem clearFlags_record : (clearFlags s).record = s.record := rfl
@[simp] theorem clearFlags_lost : (clearFlags s).lost = s.lost := rfl
@[simp] theorem clearFlags_agenda : (clearFlags s).agenda = s.agenda := rfl
@[simp] theorem clearFlags_lastRead : (clearFlags s).lastRead = s.lastRead := rfl
@[simp] theorem clearFlags_draws : (clearFlags s).draws = s.draws := rfl

@[simp] theorem returnFromFault_coef : (returnFromFault s).coef = s.coef := rfl
@[simp] theorem returnFromFault_px : (returnFromFault s).px = s.px := rfl
@[simp] theorem returnFromFault_py : (returnFromFault s).py = s.py := rfl
@[simp] theorem returnFromFault_result : (returnFromFault s).result = s.result := rfl
@[simp] theorem returnFromFault_busy : (returnFromFault s).busy = s.busy := rfl
@[simp] theorem returnFromFault_fault : (returnFromFault s).fault = false := rfl
@[simp] theorem returnFromFault_ovr : (returnFromFault s).ovr = false := rfl
@[simp] theorem returnFromFault_fcode : (returnFromFault s).fcode = none := rfl
@[simp] theorem returnFromFault_cur : (returnFromFault s).cur = s.cur := rfl
@[simp] theorem returnFromFault_record : (returnFromFault s).record = s.record := rfl
@[simp] theorem returnFromFault_lost : (returnFromFault s).lost = s.lost := rfl
@[simp] theorem returnFromFault_agenda : (returnFromFault s).agenda = s.agenda := rfl
@[simp] theorem returnFromFault_lastRead : (returnFromFault s).lastRead = s.lastRead := rfl
@[simp] theorem returnFromFault_draws : (returnFromFault s).draws = s.draws := rfl

@[simp] theorem setOverrun_coef (w : Word) : (setOverrun w s).coef = s.coef := rfl
@[simp] theorem setOverrun_px (w : Word) : (setOverrun w s).px = s.px := rfl
@[simp] theorem setOverrun_py (w : Word) : (setOverrun w s).py = s.py := rfl
@[simp] theorem setOverrun_result (w : Word) : (setOverrun w s).result = s.result := rfl
@[simp] theorem setOverrun_busy (w : Word) : (setOverrun w s).busy = s.busy := rfl
@[simp] theorem setOverrun_fault (w : Word) : (setOverrun w s).fault = s.fault := rfl
@[simp] theorem setOverrun_ovr (w : Word) : (setOverrun w s).ovr = true := rfl
@[simp] theorem setOverrun_fcode (w : Word) : (setOverrun w s).fcode = s.fcode := rfl
@[simp] theorem setOverrun_cur (w : Word) : (setOverrun w s).cur = s.cur := rfl
@[simp] theorem setOverrun_record (w : Word) : (setOverrun w s).record = s.record := rfl
@[simp] theorem setOverrun_lost (w : Word) : (setOverrun w s).lost = s.lost ++ [w] := rfl
@[simp] theorem setOverrun_agenda (w : Word) : (setOverrun w s).agenda = s.agenda := rfl
@[simp] theorem setOverrun_lastRead (w : Word) : (setOverrun w s).lastRead = s.lastRead := rfl
@[simp] theorem setOverrun_draws (w : Word) : (setOverrun w s).draws = s.draws := rfl

@[simp] theorem setResult_coef (v : Byte) : (setResult v s).coef = s.coef := rfl
@[simp] theorem setResult_px (v : Byte) : (setResult v s).px = s.px := rfl
@[simp] theorem setResult_py (v : Byte) : (setResult v s).py = s.py := rfl
@[simp] theorem setResult_result (v : Byte) : (setResult v s).result = v := rfl
@[simp] theorem setResult_busy (v : Byte) : (setResult v s).busy = s.busy := rfl
@[simp] theorem setResult_fault (v : Byte) : (setResult v s).fault = s.fault := rfl
@[simp] theorem setResult_ovr (v : Byte) : (setResult v s).ovr = s.ovr := rfl
@[simp] theorem setResult_fcode (v : Byte) : (setResult v s).fcode = s.fcode := rfl
@[simp] theorem setResult_cur (v : Byte) : (setResult v s).cur = s.cur := rfl
@[simp] theorem setResult_record (v : Byte) : (setResult v s).record = s.record := rfl
@[simp] theorem setResult_lost (v : Byte) : (setResult v s).lost = s.lost := rfl
@[simp] theorem setResult_agenda (v : Byte) : (setResult v s).agenda = s.agenda := rfl
@[simp] theorem setResult_lastRead (v : Byte) : (setResult v s).lastRead = s.lastRead := rfl
@[simp] theorem setResult_draws (v : Byte) : (setResult v s).draws = s.draws := rfl

@[simp] theorem writeCoef_coef (i : Nat) (v : Byte) : (writeCoef i v s).coef = Memory.write s.coef i v := rfl
@[simp] theorem writeCoef_px (i : Nat) (v : Byte) : (writeCoef i v s).px = s.px := rfl
@[simp] theorem writeCoef_py (i : Nat) (v : Byte) : (writeCoef i v s).py = s.py := rfl
@[simp] theorem writeCoef_result (i : Nat) (v : Byte) : (writeCoef i v s).result = s.result := rfl
@[simp] theorem writeCoef_busy (i : Nat) (v : Byte) : (writeCoef i v s).busy = s.busy := rfl
@[simp] theorem writeCoef_fault (i : Nat) (v : Byte) : (writeCoef i v s).fault = s.fault := rfl
@[simp] theorem writeCoef_ovr (i : Nat) (v : Byte) : (writeCoef i v s).ovr = s.ovr := rfl
@[simp] theorem writeCoef_fcode (i : Nat) (v : Byte) : (writeCoef i v s).fcode = s.fcode := rfl
@[simp] theorem writeCoef_cur (i : Nat) (v : Byte) : (writeCoef i v s).cur = s.cur := rfl
@[simp] theorem writeCoef_record (i : Nat) (v : Byte) : (writeCoef i v s).record = s.record := rfl
@[simp] theorem writeCoef_lost (i : Nat) (v : Byte) : (writeCoef i v s).lost = s.lost := rfl
@[simp] theorem writeCoef_agenda (i : Nat) (v : Byte) : (writeCoef i v s).agenda = s.agenda := rfl
@[simp] theorem writeCoef_lastRead (i : Nat) (v : Byte) : (writeCoef i v s).lastRead = s.lastRead := rfl
@[simp] theorem writeCoef_draws (i : Nat) (v : Byte) : (writeCoef i v s).draws = s.draws := rfl

@[simp] theorem writePoint_coef (i : Nat) (x y : Byte) : (writePoint i x y s).coef = s.coef := rfl
@[simp] theorem writePoint_px (i : Nat) (x y : Byte) : (writePoint i x y s).px = Memory.write s.px i x := rfl
@[simp] theorem writePoint_py (i : Nat) (x y : Byte) : (writePoint i x y s).py = Memory.write s.py i y := rfl
@[simp] theorem writePoint_result (i : Nat) (x y : Byte) : (writePoint i x y s).result = s.result := rfl
@[simp] theorem writePoint_busy (i : Nat) (x y : Byte) : (writePoint i x y s).busy = s.busy := rfl
@[simp] theorem writePoint_fault (i : Nat) (x y : Byte) : (writePoint i x y s).fault = s.fault := rfl
@[simp] theorem writePoint_ovr (i : Nat) (x y : Byte) : (writePoint i x y s).ovr = s.ovr := rfl
@[simp] theorem writePoint_fcode (i : Nat) (x y : Byte) : (writePoint i x y s).fcode = s.fcode := rfl
@[simp] theorem writePoint_cur (i : Nat) (x y : Byte) : (writePoint i x y s).cur = s.cur := rfl
@[simp] theorem writePoint_record (i : Nat) (x y : Byte) : (writePoint i x y s).record = s.record := rfl
@[simp] theorem writePoint_lost (i : Nat) (x y : Byte) : (writePoint i x y s).lost = s.lost := rfl
@[simp] theorem writePoint_agenda (i : Nat) (x y : Byte) : (writePoint i x y s).agenda = s.agenda := rfl
@[simp] theorem writePoint_lastRead (i : Nat) (x y : Byte) : (writePoint i x y s).lastRead = s.lastRead := rfl
@[simp] theorem writePoint_draws (i : Nat) (x y : Byte) : (writePoint i x y s).draws = s.draws := rfl

@[simp] theorem noteUninit_coef (u : Bool) : (noteUninit u s).coef = s.coef := rfl
@[simp] theorem noteUninit_px (u : Bool) : (noteUninit u s).px = s.px := rfl
@[simp] theorem noteUninit_py (u : Bool) : (noteUninit u s).py = s.py := rfl
@[simp] theorem noteUninit_result (u : Bool) : (noteUninit u s).result = s.result := rfl
@[simp] theorem noteUninit_busy (u : Bool) : (noteUninit u s).busy = s.busy := rfl
@[simp] theorem noteUninit_fault (u : Bool) : (noteUninit u s).fault = s.fault := rfl
@[simp] theorem noteUninit_ovr (u : Bool) : (noteUninit u s).ovr = s.ovr := rfl
@[simp] theorem noteUninit_fcode (u : Bool) : (noteUninit u s).fcode = s.fcode := rfl
@[simp] theorem noteUninit_cur (u : Bool) : (noteUninit u s).cur = s.cur := rfl
@[simp] theorem noteUninit_record (u : Bool) : (noteUninit u s).record = s.record ++ (if u then [.uninitRead] else []) := rfl
@[simp] theorem noteUninit_lost (u : Bool) : (noteUninit u s).lost = s.lost := rfl
@[simp] theorem noteUninit_agenda (u : Bool) : (noteUninit u s).agenda = s.agenda := rfl
@[simp] theorem noteUninit_lastRead (u : Bool) : (noteUninit u s).lastRead = s.lastRead := rfl
@[simp] theorem noteUninit_draws (u : Bool) : (noteUninit u s).draws = s.draws + u.toNat := rfl

@[simp] theorem takeFault_coef (c : FaultCode) : (takeFault c s).coef = s.coef := rfl
@[simp] theorem takeFault_px (c : FaultCode) : (takeFault c s).px = s.px := rfl
@[simp] theorem takeFault_py (c : FaultCode) : (takeFault c s).py = s.py := rfl
@[simp] theorem takeFault_result (c : FaultCode) : (takeFault c s).result = s.result := rfl
@[simp] theorem takeFault_busy (c : FaultCode) : (takeFault c s).busy = false := rfl
@[simp] theorem takeFault_fault (c : FaultCode) : (takeFault c s).fault = true := rfl
@[simp] theorem takeFault_ovr (c : FaultCode) : (takeFault c s).ovr = s.ovr := rfl
@[simp] theorem takeFault_fcode (c : FaultCode) : (takeFault c s).fcode = some c := rfl
@[simp] theorem takeFault_cur (c : FaultCode) : (takeFault c s).cur = s.cur := rfl
@[simp] theorem takeFault_record (c : FaultCode) : (takeFault c s).record = s.record ++ [.fault c] := rfl
@[simp] theorem takeFault_lost (c : FaultCode) : (takeFault c s).lost = s.lost := rfl
@[simp] theorem takeFault_agenda (c : FaultCode) : (takeFault c s).agenda = s.agenda := rfl
@[simp] theorem takeFault_lastRead (c : FaultCode) : (takeFault c s).lastRead = s.lastRead := rfl
@[simp] theorem takeFault_draws (c : FaultCode) : (takeFault c s).draws = s.draws := rfl

@[simp] theorem popTurn_coef : (s.popTurn).coef = s.coef := rfl
@[simp] theorem popTurn_px : (s.popTurn).px = s.px := rfl
@[simp] theorem popTurn_py : (s.popTurn).py = s.py := rfl
@[simp] theorem popTurn_result : (s.popTurn).result = s.result := rfl
@[simp] theorem popTurn_busy : (s.popTurn).busy = s.busy := rfl
@[simp] theorem popTurn_fault : (s.popTurn).fault = s.fault := rfl
@[simp] theorem popTurn_ovr : (s.popTurn).ovr = s.ovr := rfl
@[simp] theorem popTurn_fcode : (s.popTurn).fcode = s.fcode := rfl
@[simp] theorem popTurn_cur : (s.popTurn).cur = s.cur := rfl
@[simp] theorem popTurn_record : (s.popTurn).record = s.record := rfl
@[simp] theorem popTurn_lost : (s.popTurn).lost = s.lost := rfl
@[simp] theorem popTurn_agenda : (s.popTurn).agenda = s.agenda.tail := rfl
@[simp] theorem popTurn_lastRead : (s.popTurn).lastRead = s.lastRead := rfl
@[simp] theorem popTurn_draws : (s.popTurn).draws = s.draws := rfl

@[simp] theorem resetBlock_coef : (resetBlock s).coef = [] := rfl
@[simp] theorem resetBlock_px : (resetBlock s).px = [] := rfl
@[simp] theorem resetBlock_py : (resetBlock s).py = [] := rfl
@[simp] theorem resetBlock_result : (resetBlock s).result = 0 := rfl
@[simp] theorem resetBlock_busy : (resetBlock s).busy = false := rfl
@[simp] theorem resetBlock_fault : (resetBlock s).fault = false := rfl
@[simp] theorem resetBlock_ovr : (resetBlock s).ovr = false := rfl
@[simp] theorem resetBlock_fcode : (resetBlock s).fcode = none := rfl
@[simp] theorem resetBlock_cur : (resetBlock s).cur = 0 := rfl
@[simp] theorem resetBlock_record : (resetBlock s).record = [] := rfl
@[simp] theorem resetBlock_lost : (resetBlock s).lost = [] := rfl
@[simp] theorem resetBlock_agenda : (resetBlock s).agenda = s.agenda := rfl
@[simp] theorem resetBlock_lastRead : (resetBlock s).lastRead = s.lastRead := rfl
@[simp] theorem resetBlock_draws : (resetBlock s).draws = s.draws := rfl

@[simp] theorem complete_value (v : Byte) : complete (.value v) s = clearBusy (setResult v s) := rfl
@[simp] theorem complete_noValue : complete .noValue s = clearBusy s := rfl
@[simp] theorem complete_fault (c : FaultCode) : complete (.fault c) s = takeFault c s := rfl

@[simp] theorem noteUninit_false : noteUninit false s = s := by simp [noteUninit]

@[simp] theorem buffer_coef : s.buffer .coef = s.coef := rfl
@[simp] theorem buffer_px : s.buffer .px = s.px := rfl
@[simp] theorem buffer_py : s.buffer .py = s.py := rfl

end Sys2Proof.Machine
end

