-- ==== Sys2Proof/Laws/Entries.lean ====
section
/-! SUPPORT. Buffer entries: what updates do to them, and what the operand reads find in written entries. -/

namespace Sys2Proof.Machine

open Config (BufId ReadSite)

variable (s : State)

/-- The entries of a buffer depend on that buffer's cells alone. -/
theorem entryAt_congr {s t : State} (b : BufId) (h : s.buffer b = t.buffer b) (i : Nat) : s.entryAt b i = t.entryAt b i := by
  simp [State.entryAt, h]

@[simp] theorem entryAt_clearBusy (b : BufId) (i : Nat) : (clearBusy s).entryAt b i = s.entryAt b i := by cases b <;> rfl
@[simp] theorem entryAt_setResult (v : Byte) (b : BufId) (i : Nat) : (setResult v s).entryAt b i = s.entryAt b i := by
  cases b <;> rfl
@[simp] theorem entryAt_noteUninit (u : Bool) (b : BufId) (i : Nat) : (noteUninit u s).entryAt b i = s.entryAt b i := by
  cases b <;> rfl
@[simp] theorem entryAt_takeFault (c : FaultCode) (b : BufId) (i : Nat) : (takeFault c s).entryAt b i = s.entryAt b i := by
  cases b <;> rfl
@[simp] theorem entryAt_popTurn (b : BufId) (i : Nat) : s.popTurn.entryAt b i = s.entryAt b i := by cases b <;> rfl
@[simp] theorem entryAt_complete (r : Result) (b : BufId) (i : Nat) : (complete r s).entryAt b i = s.entryAt b i := by
  cases r <;> simp
@[simp] theorem entryAt_resetBlock (b : BufId) (i : Nat) : (resetBlock s).entryAt b i = none := by cases b <;> rfl

theorem entryAt_writeCoef_same (i : Nat) (v : Byte) : (writeCoef i v s).entryAt .coef i = some v :=
  Memory.read_write_same ..

theorem entryAt_writeCoef_other (i : Nat) (v : Byte) (b : BufId) (k : Nat) (h : ¬(b = .coef ∧ k = i)) :
    (writeCoef i v s).entryAt b k = s.entryAt b k := by
  cases b with
  | coef => exact Memory.read_write_other _ _ _ _ fun hk => h ⟨rfl, hk⟩
  | px => rfl
  | py => rfl

theorem entryAt_writePoint_px (i : Nat) (x y : Byte) : (writePoint i x y s).entryAt .px i = some x :=
  Memory.read_write_same ..

theorem entryAt_writePoint_py (i : Nat) (x y : Byte) : (writePoint i x y s).entryAt .py i = some y :=
  Memory.read_write_same ..

theorem entryAt_writePoint_other (i : Nat) (x y : Byte) (b : BufId) (k : Nat) (h : b = .coef ∨ k ≠ i) :
    (writePoint i x y s).entryAt b k = s.entryAt b k := by
  cases b with
  | coef => rfl
  | px => exact Memory.read_write_other _ _ _ _ (h.resolve_left (by simp))
  | py => exact Memory.read_write_other _ _ _ _ (h.resolve_left (by simp))

variable {s}

/-- A written entry is what every read of it finds. -/
theorem operand_of_entryAt {b : BufId} {i : Nat} {v : Byte} (site : ReadSite) (h : s.entryAt b i = some v) :
    s.operand b site i = v := by
  simp [State.operand, h]

theorem written_of_entryAt {b : BufId} {i : Nat} {v : Byte} (h : s.entryAt b i = some v) : s.written b i = true := by
  simp [State.written, h]

theorem allWritten_iff {b : BufId} {n : Nat} : s.allWritten b n = true ↔ ∀ i, i < n → s.written b i = true := by
  simp [State.allWritten]

/-- One unwritten entry below `n` is enough for the read to be noted (42_buffers.md R116). -/
theorem allWritten_of_unwritten {b : BufId} {k n : Nat} (hk : k < n) (h : s.entryAt b k = none) :
    s.allWritten b n = false := by
  rw [Bool.eq_false_iff]
  intro hw
  have := allWritten_iff.1 hw k hk
  simp [State.written, h] at this

theorem allWritten_of_entries {b : BufId} {n : Nat} {c : Nat → Byte} (h : ∀ i, i < n → s.entryAt b i = some (c i)) :
    s.allWritten b n = true :=
  allWritten_iff.2 fun i hi => written_of_entryAt (h i hi)

/-- Horner uses the coefficients below the count alone. -/
theorem hornerFrom_congr {c d : Nat → Byte} (x : Byte) (n : Nat) (h : ∀ i, i < n → c i = d i) (acc : Byte) :
    hornerFrom c x n acc = hornerFrom d x n acc := by
  induction n generalizing acc with
  | zero => rfl
  | succ n ih =>
    simp only [hornerFrom]
    rw [h n (Nat.lt_succ_self n)]
    exact ih (fun i hi => h i (Nat.lt_succ_of_lt hi)) _

/-- The x = 0 check over written entries. -/
theorem firstZero_congr {p q : ReadSite → Nat → Byte} (n : Nat) (h : ∀ site i, i < n → p site i = q site i) :
    firstZero p n = firstZero q n := by
  unfold firstZero
  rw [← List.head?_filter, ← List.head?_filter]
  congr 1
  refine List.filter_congr fun i hi => ?_
  rw [h _ i (List.mem_range.1 hi)]

/-- The x = 0 check stops at an index whose x is 0 (44_interp.md R131). -/
theorem firstZero_some {p : ReadSite → Nat → Byte} {n k : Nat} (h : firstZero p n = some k) :
    k < n ∧ p .zeroCheck k = 0 ∧ ∀ j, j < k → p .zeroCheck j ≠ 0 := by
  unfold firstZero at h
  rw [List.find?_range_eq_some] at h
  obtain ⟨hk, hn, hj⟩ := h
  exact ⟨List.mem_range.1 hn, beq_iff_eq.1 hk, fun j hlt => by simpa using hj j hlt⟩

/-- The x = 0 check passes when no x is 0 (44_interp.md R131). -/
theorem firstZero_none {p : ReadSite → Nat → Byte} {n : Nat} :
    firstZero p n = none ↔ ∀ k, k < n → p .zeroCheck k ≠ 0 := by
  simp [firstZero, List.find?_eq_none]

/-- What it means for the distinctness check to find a repeat (44_interp.md R132). -/
theorem hasRepeat_iff (p : ReadSite → Nat → Byte) (n : Nat) :
    hasRepeat p n = true ↔ ∃ i j, i < j ∧ j < n ∧ p (.pairLeft j) i = p (.pairRight i) j := by
  simp only [hasRepeat, List.any_eq_true, List.mem_range, List.mem_range'_1, beq_iff_eq]
  constructor
  · rintro ⟨i, hi, j, ⟨hij, hj⟩, h⟩
    exact ⟨i, j, by omega, by omega, h⟩
  · rintro ⟨i, j, hij, hj, h⟩
    exact ⟨i, by omega, j, ⟨by omega, by omega⟩, h⟩

end Sys2Proof.Machine
end

