-- ==== Sys2Proof/Laws/Exec.lean ====
section
/-! SUPPORT. Everything a command can do, said once: which buffer writes it makes, then one completion step. -/

namespace Sys2Proof.Machine

/-- The shapes a command's effects have before the completion step: none, a draw of free values, one coefficient, or one
point. -/
inductive Effects (i : Instr) (s : State) : Result → State → Prop where
  | plain (r : Result) : Effects i s r s
  | reads (r : Result) (u : Bool) : Effects i s r (noteUninit u s)
  | coef (idx d : Byte) (h : i = .wcoef idx d) : Effects i s .noValue (writeCoef idx.toNat d s)
  | point (idx x y : Byte) (h : i = .wpt idx x y) : Effects i s .noValue (writePoint idx.toNat x y s)

/-- Every command answers a next state: one completion step on one of those effects. -/
theorem exec_shape (i : Instr) (s : State) : ∃ r m, exec i s = .next (complete r m) ∧ Effects i s r m := by
  cases i with
  | wcoef idx d => exact ⟨_, _, rfl, .coef idx d rfl⟩
  | wpt idx x y => exact ⟨_, _, rfl, .point idx x y rfl⟩
  | rcoef idx => exact ⟨_, _, rfl, .reads _ _⟩
  | rpx idx => exact ⟨_, _, rfl, .reads _ _⟩
  | rpy idx => exact ⟨_, _, rfl, .reads _ _⟩
  | eval x n => exact ⟨_, _, rfl, .reads _ _⟩
  | interp n => exact ⟨_, _, rfl, .reads _ _⟩
  | nop => exact ⟨_, _, rfl, .plain _⟩
  | add a b => exact ⟨_, _, rfl, .plain _⟩
  | sub a b => exact ⟨_, _, rfl, .plain _⟩
  | mul a b => exact ⟨_, _, rfl, .plain _⟩
  | div a b => exact ⟨_, _, rfl, .plain _⟩
  | log a => exact ⟨_, _, rfl, .plain _⟩
  | alog k => exact ⟨_, _, rfl, .plain _⟩

/-- The same as an inversion: what a state that a command answered looks like. -/
theorem exec_next {i : Instr} {s t : State} (h : exec i s = .next t) : ∃ r m, t = complete r m ∧ Effects i s r m := by
  obtain ⟨r, m, hx, he⟩ := exec_shape i s
  rw [hx] at h
  injection h with h
  exact ⟨r, m, h.symm, he⟩

end Sys2Proof.Machine
end

