-- ==== Sys2Proof/Laws/Field.lean ====
section
/-! SUPPORT. The small facts of the ROM pair and the field functions that longer arguments cite. -/

namespace Sys2Proof.Machine

/-- LOG[0] holds the sentinel (10_state.md R23). -/
@[simp] theorem logRom_zero : logRom 0 = Config.log0 := by decide

/-- Multiplying by 0x03 is v ^ xtime(v) (40_rom.md R80, 93_implementation_defined.md G2). -/
theorem clmulMod_gen : ∀ v : Byte, clmulMod v Config.gen = v ^^^ xtime v := by decide +kernel

/-- The logarithm of a nonzero element is in 0..254, so the sum of two is at most 508 (41_field_arith.md R92, R101). -/
theorem logRom_lt : ∀ e : Byte, e ≠ 0 → (logRom e).toNat < 255 := by decide +kernel

@[simp] theorem gfAdd_zero (a : Byte) : gfAdd a 0 = a := by simp [gfAdd]
@[simp] theorem zero_gfAdd (a : Byte) : gfAdd 0 a = a := by simp [gfAdd]
@[simp] theorem gfMul_zero (a : Byte) : gfMul a 0 = 0 := by simp [gfMul]
@[simp] theorem zero_gfMul (a : Byte) : gfMul 0 a = 0 := by simp [gfMul]

theorem gfMul_of_ne {a b : Byte} (ha : a ≠ 0) (hb : b ≠ 0) :
    gfMul a b = alogRom ((logRom a).toNat + (logRom b).toNat) :=
  if_neg (not_or.2 ⟨ha, hb⟩)

/-- gf_div raises DIV_ZERO for a zero divisor (41_field_arith.md R93). -/
@[simp] theorem gfDiv_zero (a : Byte) : gfDiv a 0 = .error .divZero := rfl

theorem gfDiv_of_ne (a : Byte) {b : Byte} (hb : b ≠ 0) : gfDiv a b = .ok (gfMul a (gfInv b)) := if_neg hb

end Sys2Proof.Machine
end

