-- ==== Sys2Proof/Laws/Interp.lean ====
section
/-! SUPPORT. How the loops of INTERP end: which faults they can raise, and when they give a value. -/

namespace Sys2Proof.Machine

/-- The one fault of gf_div (41_field_arith.md R93). -/
theorem gfDiv_error {a b : Byte} {c : FaultCode} (h : gfDiv a b = .error c) : c = .divZero := by
  rw [gfDiv] at h
  split at h
  · cases h; rfl
  · cases h

/-- The inner loop can only raise the divider's fault. -/
theorem basisLoop_error {px : Config.ReadSite → Nat → Byte} {i : Nat} {c : FaultCode} (js : List Nat) (l : Byte)
    (h : basisLoop px i js l = .error c) : c = .divZero := by
  induction js generalizing l with
  | nil => cases h
  | cons j js ih =>
    rw [basisLoop] at h
    split at h
    · exact ih l h
    · split at h
      · exact ih _ h
      · rename_i hq
        cases h
        exact gfDiv_error hq

/-- The outer loop can only raise the divider's fault. -/
theorem sumLoop_error {px : Config.ReadSite → Nat → Byte} {py : Nat → Byte} {n : Nat} {c : FaultCode} (is : List Nat)
    (acc : Byte) (h : sumLoop px py n is acc = .error c) : c = .divZero := by
  induction is generalizing acc with
  | nil => cases h
  | cons i is ih =>
    rw [sumLoop] at h
    split at h
    · exact ih _ h
    · rename_i hq
      cases h
      exact basisLoop_error _ _ hq

/-- The faults INTERP can raise on a legal count, also from free values (60_exceptions.md R143). -/
theorem lagrangeZero_error {px : Config.ReadSite → Nat → Byte} {py : Nat → Byte} {n : Nat} {c : FaultCode}
    (h : lagrangeZero px py n = .error c) : c = .xZero ∨ c = .divZero := by
  rw [lagrangeZero] at h
  split at h
  · cases h; exact .inl rfl
  · split at h
    · cases h; exact .inr rfl
    · exact .inr (sumLoop_error _ _ h)

/-- The inner loop divides by no 0 when its differences are not 0. -/
theorem basisLoop_ok {px : Config.ReadSite → Nat → Byte} {i : Nat} (js : List Nat) (l : Byte)
    (h : ∀ j ∈ js, j ≠ i → px (.minuend j) i ≠ px (.subtrahend i) j) : ∃ v, basisLoop px i js l = .ok v := by
  induction js generalizing l with
  | nil => exact ⟨l, rfl⟩
  | cons j js ih =>
    have ih := fun l => ih l fun k hk => h k (List.mem_cons_of_mem _ hk)
    rw [basisLoop]
    split
    · exact ih l
    · rename_i hj
      have hd : gfSub (px (.minuend j) i) (px (.subtrahend i) j) ≠ 0 := fun h0 =>
        h j List.mem_cons_self hj (BitVec.xor_eq_zero_iff.1 h0)
      rw [basisFactor, gfDiv_of_ne _ hd]
      exact ih _

/-- The outer loop divides by no 0 when its differences are not 0. -/
theorem sumLoop_ok {px : Config.ReadSite → Nat → Byte} {py : Nat → Byte} {n : Nat} (is : List Nat) (acc : Byte)
    (h : ∀ i ∈ is, ∀ j, j < n → j ≠ i → px (.minuend j) i ≠ px (.subtrahend i) j) :
    ∃ v, sumLoop px py n is acc = .ok v := by
  induction is generalizing acc with
  | nil => exact ⟨acc, rfl⟩
  | cons i is ih =>
    obtain ⟨l, hl⟩ := basisLoop_ok (List.range n) 0x01 fun j hj =>
      h i List.mem_cons_self j (List.mem_range.1 hj)
    rw [sumLoop, hl]
    exact ih _ fun k hk => h k (List.mem_cons_of_mem _ hk)

/-- Over written points with nonzero distinct x both checks pass and a value results, whatever the y are (44_interp.md R130). -/
theorem lagrangeZero_ok {px : Config.ReadSite → Nat → Byte} {n : Nat} {xs : Nat → Byte} (py : Nat → Byte)
    (hx : ∀ site i, i < n → px site i = xs i) (hp : ProperPoints n xs) :
    firstZero px n = none ∧ hasRepeat px n = false ∧ ∃ v, lagrangeZero px py n = .ok v := by
  have hz : firstZero px n = none := firstZero_none.2 fun i hi => by rw [hx _ _ hi]; exact hp.1 i hi
  have hr : hasRepeat px n = false := by
    rw [Bool.eq_false_iff]
    intro h
    obtain ⟨i, j, hij, hj, h⟩ := (hasRepeat_iff px n).1 h
    rw [hx _ _ (by omega), hx _ _ hj] at h
    exact hp.2 j hj i hij h
  refine ⟨hz, hr, ?_⟩
  obtain ⟨v, hv⟩ := sumLoop_ok (px := px) (py := py) (n := n) (List.range n) 0x00 fun i hi j hj hne h => by
    have hi := List.mem_range.1 hi
    rw [hx _ _ hi, hx _ _ hj] at h
    rcases Nat.lt_or_gt_of_ne hne with hl | hl
    · exact hp.2 i hi j hl h.symm
    · exact hp.2 j hj i hl h
  exact ⟨v, by rw [lagrangeZero, hz, hr]; exact hv⟩

end Sys2Proof.Machine
end

