-- ==== Sys2Proof/Laws/Step.lean ====
section
/-! SUPPORT. Everything a step can do, said once, and what a host access to each register is. -/

namespace Sys2Proof.Machine

theorem step_of_host {s : State} {a : Access} (h : s.nextTurn = .host a) : step s = hostAccess a s.popTurn := by
  simp [step, h]

theorem step_of_block {s : State} (h : s.nextTurn = .block) : step s = blockTurn s.popTurn := by simp [step, h]

theorem step_of_reset {s : State} (h : s.nextTurn = .reset) : step s = .next (resetBlock s.popTurn) := by simp [step, h]

/-- A legal access names the register at its offset (20_memory.md R40, R42). -/
@[simp] theorem target_readOf (r : Reg) : (Access.readOf r).target = some r := by
  cases r <;> simp [Access.target, Access.readOf, Reg.offset, regAt]

@[simp] theorem target_writeOf (r : Reg) (v : Word) : (Access.writeOf r v).target = some r := by
  cases r <;> simp [Access.target, Access.writeOf, Reg.offset, regAt]

theorem hostAccess_readOf (r : Reg) (s : State) : hostAccess (Access.readOf r) s = .next (readReg r s) := by
  simp only [hostAccess, target_readOf]
  rfl

theorem hostAccess_writeOf (r : Reg) (v : Word) (s : State) :
    hostAccess (Access.writeOf r v) s = .next (writeReg r v s) := by
  simp only [hostAccess, target_writeOf]
  rfl

/-- What a step that answers a next state did. -/
inductive Moved (s t : State) : Prop where
  | read (a : Access) (r : Reg) (ht : s.nextTurn = .host a) (hr : a.target = some r) (hk : a.transfer = .read)
      (h : t = readReg r s.popTurn)
  | wrote (a : Access) (r : Reg) (v : Word) (ht : s.nextTurn = .host a) (hr : a.target = some r)
      (hk : a.transfer = .write v) (h : t = writeReg r v s.popTurn)
  | outside (a : Access) (ht : s.nextTurn = .host a) (hr : a.target = none) (h : t = s.popTurn)
  | completed (i : Instr) (ht : s.nextTurn = .block) (hb : s.busy = true) (hd : decode s.cur = .ok i)
      (h : exec i s.popTurn = .next t)
  | illegal (e : Reject) (ht : s.nextTurn = .block) (hb : s.busy = true) (hd : decode s.cur = .error e)
      (h : t = takeFault .illegalCmd s.popTurn)
  | idle (ht : s.nextTurn = .block) (hb : s.busy = false) (h : t = s.popTurn)
  | reset (ht : s.nextTurn = .reset) (h : t = resetBlock s.popTurn)

/-- The inversion of `step`. -/
theorem step_next {s t : State} (h : step s = .next t) : Moved s t := by
  cases ht : s.nextTurn with
  | host a =>
    rw [step_of_host ht, hostAccess] at h
    split at h
    · rename_i r hr
      split at h
      · rename_i hk
        injection h with h
        exact .read a r ht hr hk h.symm
      · rename_i v hk
        injection h with h
        exact .wrote a r v ht hr hk h.symm
    · rename_i hr
      split at h
      · cases h
      · injection h with h
        exact .outside a ht hr h.symm
  | block =>
    rw [step_of_block ht, blockTurn] at h
    split at h
    · rename_i hb
      rw [completeCurrent] at h
      split at h
      · rename_i i hd
        exact .completed i ht hb hd h
      · rename_i e hd
        injection h with h
        exact .illegal e ht hb hd h.symm
    · rename_i hb
      injection h with h
      exact .idle ht (Bool.eq_false_iff.2 hb) h.symm
  | reset =>
    rw [step_of_reset ht] at h
    injection h with h
    exact .reset ht h.symm

/-- A host read changes nothing but what the host saw and the free values drawn (20_memory.md R46). -/
theorem readReg_frame (r : Reg) (s : State) :
    ∃ l d, readReg r s = { s with lastRead := l, draws := d } := by
  cases r with
  | cmd => exact ⟨_, _, rfl⟩
  | status => exact ⟨_, _, rfl⟩
  | ctrl => exact ⟨_, _, rfl⟩
  | result =>
    simp only [readReg, readResult]
    split
    · exact ⟨_, _, rfl⟩
    · exact ⟨_, _, rfl⟩

/-- A host write does one of five things (10_state.md R27, R33; 20_memory.md R46). -/
theorem writeReg_cases (r : Reg) (v : Word) (s : State) :
    writeReg r v s = s ∨
    (r = .cmd ∧ s.fault = false ∧ s.busy = true ∧ writeReg r v s = setOverrun v s) ∨
    (r = .cmd ∧ s.fault = false ∧ s.busy = false ∧ writeReg r v s = setBusy v s) ∨
    (r = .ctrl ∧ v.getLsbD 0 = true ∧ writeReg r v s = clearFlags s) := by
  cases r with
  | cmd =>
    simp only [writeReg, writeCmd]
    by_cases hf : s.fault
    · simp [hf]
    · by_cases hb : s.busy <;> simp [hf, hb]
  | result => exact .inl rfl
  | status => exact .inl rfl
  | ctrl =>
    simp only [writeReg, writeCtrl, returnFromFault]
    by_cases hv : v.getLsbD 0 = true
    · exact .inr (.inr (.inr ⟨trivial, hv, if_pos hv⟩))
    · exact .inl (if_neg hv)

/-- What an access that is not refused leaves of a block with a command in flight (20_memory.md R48, its fourth rule). -/
theorem hostAccess_in_flight {a : Access} {s : State} (hb : s.busy = true)
    (ha : a.target ≠ none ∨ a.touchesWindow = false) :
    ∃ m, hostAccess a s = .next m ∧ m.busy = true ∧ m.cur = s.cur ∧ m.result = s.result ∧ m.agenda = s.agenda ∧
      ∀ b i, m.entryAt b i = s.entryAt b i := by
  rw [hostAccess]
  rcases ht : a.target with _ | r
  · have hw : a.touchesWindow = false := by simpa [ht] using ha
    exact ⟨s, by simp [hw], hb, rfl, rfl, rfl, fun _ _ => rfl⟩
  · rcases a.transfer with _ | v
    · obtain ⟨l, d, h⟩ := readReg_frame r s
      refine ⟨_, rfl, ?_⟩
      rw [h]
      exact ⟨hb, rfl, rfl, rfl, fun b _ => by cases b <;> rfl⟩
    · refine ⟨_, rfl, ?_⟩
      rcases writeReg_cases r v s with h | ⟨-, -, -, h⟩ | ⟨-, -, h, -⟩ | ⟨-, -, h⟩
      · rw [h]
        exact ⟨hb, rfl, rfl, rfl, fun _ _ => rfl⟩
      · rw [h]
        exact ⟨hb, rfl, rfl, rfl, fun b _ => by cases b <;> rfl⟩
      · rw [hb] at h
        cases h
      · rw [h]
        exact ⟨hb, rfl, rfl, rfl, fun b _ => by cases b <;> rfl⟩

end Sys2Proof.Machine
end

