-- ==== Sys2Proof/Tests/Slice0.lean ====
section
/-! SUPPORT. The model's own tests. Words are written out from the formats of 30_encoding.md R63, bits 31 down to 0; results
come from 95_test_vectors.md and from the examples and corner cases of the rules named. -/

namespace Sys2Proof.Tests

open Sys2Proof.Machine

/-! ### Decoding, one word a constructor (30_encoding.md R63, R65) -/

/-- What the decoder reads from a word. -/
def read (w : Word) : Option Instr :=
  match decode w with
  | .ok i => some i
  | .error _ => none

/-- Why the decoder refuses a word. -/
def refusal (w : Word) : Option Reject :=
  match decode w with
  | .ok _ => none
  | .error e => some e

theorem test_decode_nop : read 0b00000000_00000000_00000000_0000_0000 = some .nop := by decide
theorem test_decode_add : read 0b00000000_11001010_01010011_0000_0001 = some (.add 0x53 0xCA) := by decide
theorem test_decode_sub : read 0b00000000_10000000_00000000_0000_0010 = some (.sub 0x00 0x80) := by decide
theorem test_decode_mul : read 0b00000000_00000111_00000011_0000_0011 = some (.mul 0x03 0x07) := by decide
theorem test_decode_div : read 0b00000000_00000111_00001001_0000_0100 = some (.div 0x09 0x07) := by decide
theorem test_decode_log : read 0b00000000_00000000_11110110_0000_0101 = some (.log 0xF6) := by decide
theorem test_decode_alog : read 0b0000000_111111101_00000000_0000_0110 = some (.alog 509) := by decide
theorem test_decode_wcoef : read 0b00000010_00000000_00011101_0000_0111 = some (.wcoef 2 0x1D) := by decide
theorem test_decode_wpt : read 0b00000011_10100101_00000100_0000_1000 = some (.wpt 3 0x04 0xA5) := by decide
theorem test_decode_rcoef : read 0b11111111_00000000_00000000_0000_1001 = some (.rcoef 255) := by decide
theorem test_decode_rpx : read 0b00000111_00000000_00000000_0000_1010 = some (.rpx 7) := by decide
theorem test_decode_rpy : read 0b00000111_00000000_00000000_0000_1011 = some (.rpy 7) := by decide
theorem test_decode_eval : read 0b0000000_100000000_00000010_0000_1100 = some (.eval 0x02 256) := by decide
theorem test_decode_interp : read 0b0000000_000000011_00000000_0000_1101 = some (.interp 3) := by decide

/-- 30_encoding.md R66: the three cases of an illegal word. -/
theorem test_reject_reserved_op : refusal 0x0000000E = some .reservedOp ∧ refusal 0x0000000F = some .reservedOp := by decide
theorem test_reject_rsv : refusal 0x00000011 = some .nonzeroRsv := by decide
theorem test_reject_reserved_bits :
    refusal 0x80000000 = some .reservedBit ∧ refusal 0x00010005 = some .reservedBit ∧
    refusal 0x0203020C = some .reservedBit ∧ refusal 0x00010007 = some .reservedBit := by decide

/-- 20_memory.md R43: the bytes of `MUL 0x03, 0x07`, lowest address first. -/
theorem test_bytes_little_endian : bytesOfWord 0x00070303 = [0x03, 0x03, 0x07, 0x00] ∧
    encodeBytes (.mul 0x03 0x07) = [0x03, 0x03, 0x07, 0x00] := by decide

theorem test_decode_table_word : decodeTableWord 32 0x00070303 = some (.mul 0x03 0x07) := by decide

/-! ### Well-formedness, each check refusing an ill-formed command (30_encoding.md R67) -/

theorem test_wf_refuses_alog_510 : (Instr.alog 510).wf = false ∧ (Instr.alog 509).wf = true := by decide
theorem test_wf_refuses_eval_257 : (Instr.eval 0x05 257).wf = false ∧ (Instr.eval 0x05 256).wf = true := by decide
theorem test_wf_refuses_interp_257 : (Instr.interp 257).wf = false ∧ (Instr.interp 256).wf = true := by decide

/-- 30_encoding.md R69, R70: an operand that does not fit is refused; a pseudo-instruction is one command. -/
theorem test_assembler : assemble (.add 256 0) = none ∧ assemble (.alog 512) = none ∧
    assemble (.inv 0x53) = some (.div 0x01 0x53) ∧ assemble (.eval 0x02 3) = some (.eval 0x02 3) := by decide

/-! ### One step per command (95_test_vectors.md sections 2.1 to 2.5) -/

/-- What the host would see of RESULT and STATUS after the step that completes `w`, RESULT preset to 0xEE. -/
def after (w : Nat) (s : State) : Option (Byte × Word) :=
  match step (({ s with result := 0xEE } : State).withFetchWord 32 w) with
  | .next t => some (t.result, t.statusWord)
  | .fault _ => none
  | .refused _ => none

/-- The next state after the step that completes `w`. -/
def next (w : Nat) (s : State) : Option State :=
  match step (s.withFetchWord 32 w) with
  | .next t => some t
  | .fault _ => none
  | .refused _ => none

/-- The setup of 95_test_vectors.md 2.3. -/
def bufferSetup : State :=
  { State.reset with coef := [(0, 0x2A), (255, 0x77)], px := [(0, 0x00), (7, 0x09)], py := [(0, 0x55), (7, 0x33)] }

/-- The setup of 95_test_vectors.md 2.4. -/
def evalSetup : State := { State.reset with coef := [(0, 0x2A), (1, 0x11), (2, 0x1D)] }

/-- The setup A of 95_test_vectors.md 2.5. -/
def interpSetup : State :=
  { State.reset with
    px := [(0, 0x01), (1, 0x02), (2, 0x03), (3, 0x04), (4, 0x05)],
    py := [(0, 0x26), (1, 0x7C), (2, 0x70), (3, 0xA5), (4, 0xA9)] }

theorem test_nop_keeps_result : after 0x00000000 bufferSetup = some (0xEE, 0x00000000) := by decide
theorem test_add : after 0x00CA5301 .reset = some (0x99, 0x00000000) := by decide
theorem test_sub_no_borrow : after 0x00800002 .reset = some (0x80, 0x00000000) := by decide
theorem test_mul_source_s8 : after 0x00070303 .reset = some (0x09, 0x00000000) := by decide
theorem test_mul_largest_log_sum : after 0x00F6F603 .reset = some (0x52, 0x00000000) := by decide
theorem test_div : after 0x0083C104 .reset = some (0x57, 0x00000000) := by decide
theorem test_div_by_zero : after 0x00000504 .reset = some (0xEE, 0x00000052) := by decide
theorem test_log_sentinel : after 0x00000005 .reset = some (0xFF, 0x00000000) := by decide
theorem test_log_largest : after 0x0000F605 .reset = some (0xFE, 0x00000000) := by decide
theorem test_alog_last_entry : after 0x01FD0006 .reset = some (0xF6, 0x00000000) := by decide
theorem test_alog_range : after 0x01FE0006 .reset = some (0xEE, 0x00000032) := by decide
theorem test_wcoef : (next 0x01001107 bufferSetup).map (fun t => (t.coef, t.result)) =
    some ([(0, 0x2A), (1, 0x11), (255, 0x77)], 0x00) := by decide
theorem test_wpt_overwrites : (next 0x07A50408 bufferSetup).map (fun t => (t.px, t.py)) =
    some ([(0, 0x00), (7, 0x04)], [(0, 0x55), (7, 0xA5)]) := by decide
theorem test_rcoef_last : after 0xFF000009 bufferSetup = some (0x77, 0x00000000) := by decide
theorem test_rpx : after 0x0700000A bufferSetup = some (0x09, 0x00000000) := by decide
theorem test_rpy : after 0x0700000B bufferSetup = some (0x33, 0x00000000) := by decide
theorem test_eval : after 0x0003020C evalSetup = some (0x7C, 0x00000000) := by decide
theorem test_eval_bad_len : after 0x0101050C evalSetup = some (0xEE, 0x00000022) := by decide
theorem test_interp : after 0x0003000D interpSetup = some (0x2A, 0x00000000) := by decide
/-- Setup D: X_ZERO comes before DIV_ZERO (60_exceptions.md R143). -/
theorem test_interp_x_zero_first :
    after 0x0003000D { State.reset with px := [(0, 0x00), (1, 0x02), (2, 0x02)], py := [(0, 0x2A), (1, 0x7C), (2, 0x70)] } =
      some (0xEE, 0x00000042) := by decide

/-- 60_exceptions.md R141: an illegal word. -/
theorem test_illegal_word : after 0x00000010 bufferSetup = some (0xEE, 0x00000012) := by decide

/-- 42_buffers.md R116 on 95_test_vectors.md 2.7, recovery step 5: STATUS shows nothing, the ghost record has UNINIT_READ. -/
theorem test_uninit_read : (next 0x00000009 .reset).map (fun t => (t.statusWord, t.record)) =
    some (0x00000000, [.uninitRead]) := by decide

/-- INTERP stops reading at the first 0, so an unwritten later entry is not read (44_interp.md R131). -/
theorem test_uninit_not_reached :
    (next 0x0003000D { State.reset with px := [(0, 0x00)] }).map (fun t => t.record) = some [.fault .xZero] := by decide

/-- The Horner accumulator takes the values 0x1D, 0x2B, 0x7C (43_eval.md R120, the trace of 95_test_vectors.md 2.4). -/
theorem test_horner_trace :
    let c := evalSetup.operand .coef .only
    gfAdd (gfMul 0x00 0x02) (c 2) = 0x1D ∧ gfAdd (gfMul 0x1D 0x02) (c 1) = 0x2B ∧ gfAdd (gfMul 0x2B 0x02) (c 0) = 0x7C := by
  decide

/-! ### The register window (95_test_vectors.md 2.7) -/

theorem test_overrun : (writeReg .cmd 0x00020101 (writeReg .cmd 0x00070303 .reset)).statusWord = 0x00000005 := by decide
theorem test_fault_blocks_without_overrun :
    (writeReg .cmd 0x00009907 (takeFault .divZero .reset)).statusWord = 0x00000052 := by decide
theorem test_clrf : (writeReg .ctrl 0x00000001 (takeFault .divZero .reset)).statusWord = 0x00000000 := by decide
theorem test_ctrl_other_bits_ignored :
    (writeReg .ctrl 0xFFFFFFFE (takeFault .divZero .reset)).statusWord = 0x00000052 := by decide
theorem test_cmd_reads_zero : (readReg .cmd (setBusy 0x00070303 .reset)).lastRead = some 0x00000000 := by decide
/-- The access path: a legal write of CMD accepts the word (10_state.md R27). -/
theorem test_issue_accepts : step { State.reset with agenda := [Turn.issue (.mul 0x03 0x07)] } =
    .next { State.reset with cur := 0x00070303, busy := true } := by
  have h : encode (.mul 0x03 0x07) = 0x00070303 := by decide
  rw [step_of_host rfl, hostAccess_writeOf, h]
  rfl
/-- A byte access inside the window is refused (20_memory.md R42). -/
theorem test_byte_access_refused :
    hostAccess { transfer := .read, addr := Config.base, bytes := 1, beats := 1 } .reset =
      .refused (.illegalAccess { transfer := .read, addr := Config.base, bytes := 1, beats := 1 } [.refusedAccess]) := by
  simp [hostAccess, Access.target, Access.touchesWindow]
  rfl

/-! ### Witnesses: a state and operands that meet the hypotheses of each statement -/

/-- A state with a command in flight and `turns` to come. -/
def flying (w : Word) (turns : List Turn) : State := { State.reset with cur := w, busy := true, agenda := turns }

/-- A state with a fault that STATUS shows, and `turns` to come. -/
def faulted (turns : List Turn) : State :=
  { State.reset with fault := true, fcode := some .divZero, record := [.fault .divZero], agenda := turns }

theorem reset_inv : State.reset.Inv :=
  ⟨by decide, rfl, rfl, rfl, rfl, rfl, by decide, fun _ h => nomatch h⟩

theorem flying_inv (w : Word) (turns : List Turn) : (flying w turns).Inv :=
  ⟨fun h => Bool.noConfusion h.2, rfl, rfl, rfl, rfl, rfl, fun h => Bool.noConfusion h, fun _ h => nomatch h⟩

theorem faulted_inv (turns : List Turn) : (faulted turns).Inv :=
  ⟨fun h => Bool.noConfusion h.1, rfl, rfl, rfl, rfl, rfl, fun h => Bool.noConfusion h,
    fun _ h => List.mem_singleton.2 (congrArg Recorded.fault (Option.some.inj h).symm)⟩

theorem witness_ResetLeavesTheSpecValues : (flying 0x00070303 [.reset]).nextTurn = .reset := rfl
theorem witness_StepRunsTheDecodedCommand :
    (flying 0x00070303 []).nextTurn = .block ∧ (flying 0x00070303 []).busy = true ∧
    decodeBytes (bytesOfWord (flying 0x00070303 []).cur) = .ok (.mul 0x03 0x07, []) := ⟨rfl, rfl, by rfl⟩
theorem witness_IdleBlockKeepsItsState : State.reset.nextTurn = .block ∧ State.reset.busy = false := ⟨rfl, rfl⟩
theorem witness_IssuedCommandRunsAtTheBlocksTurn :
    ({ State.reset with agenda := [Turn.issue .nop, .block] } : State).Ready ∧
    ({ State.reset with agenda := [Turn.issue .nop, .block] } : State).agenda = Turn.issue .nop :: .block :: [] :=
  ⟨⟨rfl, rfl⟩, rfl⟩
theorem witness_UnmatchedWordRaisesIllegalCmd :
    (flying 0x0000000E []).nextTurn = .block ∧ (flying 0x0000000E []).busy = true ∧
    ∀ r ∈ opRows, (flying 0x0000000E []).cur &&& r.mask ≠ r.pattern := by decide
theorem witness_EveryDecodedWordIsItsEncoding : decode 0xFF000009 = .ok (.rcoef 255) := by rfl
theorem witness_DivReturnsTheQuotient : (0x07 : Byte) ≠ 0 := by decide
theorem witness_LogReturnsTheDiscreteLogarithm : (0x00 : Byte) = 0 ∧ (0xF6 : Byte) ≠ 0 ∧ (254 : Nat) < 255 ∧ alogRom 254 = 0xF6 := by
  decide
theorem witness_AlogReturnsThePowerOfTheGenerator : (509 : Count).toNat ≤ 509 ∧ 509 < (510 : Count).toNat := by decide
theorem witness_RomContentsInvariants :
    (0x01 : Byte) ≠ 0 ∧ 255 ≤ 509 ∧ alogRom 0 = 0x01 ∧ 509 < 510 ∧ alogRom 1 = genPower 1 := by decide
theorem witness_MultiplicationAndDivisionLaws : (0xFF : Byte) ≠ 0 := by decide
theorem witness_WcoefWritesOneCoefficient : (254 : Nat) ≠ (255 : Byte).toNat := by decide
theorem witness_WptWritesOnePoint : (1 : Nat) ≠ (0 : Byte).toNat := by decide
theorem witness_ReadCommandsReturnWrittenEntries :
    bufferSetup.entryAt .coef (255 : Byte).toNat = some 0x77 ∧ bufferSetup.entryAt .px (0 : Byte).toNat = some 0x00 ∧
    bufferSetup.entryAt .py (7 : Byte).toNat = some 0x33 := by decide
theorem witness_ReadCommandsOfUnwrittenEntries :
    State.reset.entryAt .coef (0 : Byte).toNat = none ∧ State.reset.entryAt .px (255 : Byte).toNat = none ∧
    State.reset.entryAt .py (7 : Byte).toNat = none := by decide

/-- The coefficients of `evalSetup`. -/
def evalCoefs (i : Nat) : Byte := if i = 0 then 0x2A else if i = 1 then 0x11 else 0x1D

theorem witness_EvalReturnsThePolynomialsValue :
    (3 : Count).toNat ≤ 256 ∧ evalSetup.Coefs (3 : Count).toNat evalCoefs ∧ State.reset.Coefs (0 : Count).toNat evalCoefs := by
  decide

/-- A state whose COEF is written whole. -/
def fullCoefs : State := { State.reset with coef := (List.range 256).map fun i => (i, 0x01) }

set_option maxRecDepth 20000 in
theorem witness_EvalReturnsThePolynomialsValue_largest_count :
    (256 : Count).toNat ≤ 256 ∧ fullCoefs.Coefs (256 : Count).toNat (fun _ => 0x01) := by decide
theorem witness_HornerLaws : 1 ≤ 1 ∧ 1 ≤ 2 ∧ (∀ i, 1 ≤ i → i < 2 → (fun k => if k = 0 then (0x2A : Byte) else 0) i = 0) ∧
    ∀ i, i < 1 → evalCoefs i = (fun _ => 0x2A) i := by
  refine ⟨by decide, by decide, fun i h1 h2 => ?_, by decide⟩
  have : i = 1 := by omega
  subst this
  rfl
theorem witness_RangeChecksRaiseTheirFaults : 256 < (257 : Count).toNat ∧ 509 < (510 : Count).toNat ∧
    State.reset.fcode = none ∧ (Instr.eval 0x05 256).wf = true ∧
    exec (.add 0x53 0xCA) .reset = .next { State.reset with result := 0x99 } := ⟨by decide, by decide, rfl, rfl, by rfl⟩
theorem witness_UnwrittenOperandsAreRecorded : (256 : Count).toNat ≤ 256 ∧
    (∃ i, i < (256 : Count).toNat ∧ evalSetup.entryAt .coef i = none) ∧
    ∃ k, k < (256 : Count).toNat ∧ interpSetup.entryAt .px k = none ∧
      ∀ i, i < k → interpSetup.entryAt .px i ≠ some 0 ∧ interpSetup.entryAt .px i ≠ none :=
  ⟨by decide, ⟨3, by decide⟩, ⟨5, by decide⟩⟩

/-- The points of `interpSetup`. -/
def shareX (i : Nat) : Byte := BitVec.ofNat 8 (i + 1)
/-- The points of `interpSetup`. -/
def shareY (i : Nat) : Byte :=
  if i = 0 then 0x26 else if i = 1 then 0x7C else if i = 2 then 0x70 else if i = 3 then 0xA5 else 0xA9

/-- The points of `interpSetup` with the y at index 2 missing. -/
def missingY : State := { interpSetup with py := [(0, 0x26), (1, 0x7C), (3, 0xA5), (4, 0xA9)] }

theorem witness_UnwrittenOperandsAreRecorded_py :
    (5 : Count).toNat ≤ 256 ∧ (∀ i, i < (5 : Count).toNat → missingY.entryAt .px i = some (shareX i)) ∧
    ProperPoints (5 : Count).toNat shareX ∧ ∃ k, k < (5 : Count).toNat ∧ missingY.entryAt .py k = none :=
  ⟨by decide, by decide, by decide, ⟨2, by decide⟩⟩
theorem witness_InterpReturnsTheLagrangeSum :
    (5 : Count).toNat ≤ 256 ∧ interpSetup.Points (5 : Count).toNat shareX shareY ∧ ProperPoints (5 : Count).toNat shareX ∧
    State.reset.Points (0 : Count).toNat shareX shareY := by decide

/-- A state whose PX is written whole, entry i holding i. -/
def fullPoints : State := { State.reset with px := (List.range 256).map fun i => (i, BitVec.ofNat 8 i) }

theorem witness_InterpWithAZeroXRaisesXZero :
    (2 : Count).toNat ≤ 256 ∧ 1 < (2 : Count).toNat ∧
    ({ State.reset with px := [(0, 0x02), (1, 0x00)] } : State).entryAt .px 1 = some 0 ∧
    ∀ i, i < 1 → ({ State.reset with px := [(0, 0x02), (1, 0x00)] } : State).entryAt .px i ≠ none := by decide

/-- A state with two points at one x. -/
def repeated (x : Byte) : State := { State.reset with px := [(0, x), (1, x)] }

theorem witness_InterpWithARepeatedXRaisesDivZero :
    (2 : Count).toNat ≤ 256 ∧ (∀ k, k < (2 : Count).toNat → (repeated 0x01).entryAt .px k = some 0x01) ∧
    (∀ k, k < (2 : Count).toNat → (repeated 0x00).entryAt .px k = some 0x00) ∧ 0 < 1 ∧ 1 < (2 : Count).toNat ∧
    (∀ k, k < (2 : Count).toNat → (fun _ => (0x01 : Byte)) k ≠ 0) ∧
    ∃ k, k < (2 : Count).toNat ∧ (fun _ => (0x00 : Byte)) k = 0 := ⟨by decide, by decide, by decide, by decide, by decide, by decide, ⟨0, by decide⟩⟩

set_option maxRecDepth 20000 in
theorem witness_InterpOf256PointsAlwaysFaults : ∀ k, k < 256 → fullPoints.entryAt .px k = some (BitVec.ofNat 8 k) := by decide

/-- The points of `interpSetup` in the opposite order. -/
def reversedSetup : State :=
  { State.reset with
    px := [(0, 0x05), (1, 0x04), (2, 0x03), (3, 0x02), (4, 0x01)],
    py := [(0, 0xA9), (1, 0xA5), (2, 0x70), (3, 0x7C), (4, 0x26)] }

theorem witness_InterpIgnoresTheOrderOfPoints :
    (5 : Count).toNat ≤ 256 ∧ interpSetup.Points (5 : Count).toNat shareX shareY ∧ ProperPoints (5 : Count).toNat shareX ∧
    (∀ i, i < (5 : Count).toNat → (fun i => 4 - i) i < (5 : Count).toNat) ∧
    (∀ i j, i < (5 : Count).toNat → j < (5 : Count).toNat → (fun i => 4 - i) i = (fun i => 4 - i) j → i = j) ∧
    reversedSetup.Points (5 : Count).toNat (fun i => shareX (4 - i)) (fun i => shareY (4 - i)) := by
  refine ⟨by decide, by decide, by decide, by decide, fun i j hi hj h => ?_, by decide⟩
  have : (5 : Count).toNat = 5 := rfl
  dsimp only at h
  omega

theorem witness_InterpRecoversTheConstantTerm :
    (5 : Count).toNat ≤ 256 ∧ 2 + 1 ≤ (5 : Count).toNat ∧ interpSetup.Points (5 : Count).toNat shareX shareY ∧
    ProperPoints (5 : Count).toNat shareX ∧
    ∀ i, i < (5 : Count).toNat → shareY i = horner evalCoefs (shareX i) (2 + 1) := by decide

theorem witness_EveryCommandCompletesAndKeepsItsFrame :
    (∀ idx d, Instr.wcoef 255 0x77 = .wcoef idx d → 254 ≠ idx.toNat) ∧
    (∀ idx x y, Instr.wpt 0 0x01 0x26 = .wpt idx x y → 1 ≠ idx.toNat) := by
  refine ⟨fun idx d h => ?_, fun idx x y h => ?_⟩
  · cases h
    decide
  · cases h
    decide
theorem witness_FaultEntryChangesNothingElse :
    State.reset.fault = false ∧ exec (.div 0x05 0x00) .reset = .next (takeFault .divZero .reset) ∧
    (takeFault .divZero .reset).fault = true := ⟨rfl, rfl, rfl⟩
theorem witness_FaultCausesInPriorityOrder :
    State.reset.fcode = none ∧ interpSetup.fcode = none ∧
    (∀ n, Instr.interp 5 = .interp n → n.toNat ≤ 256 → ∀ k, k < n.toNat → interpSetup.entryAt .px k ≠ none) ∧
    ∃ t, exec (.interp 5) interpSetup = .next t := by
  refine ⟨rfl, rfl, fun n h => ?_, _, rfl⟩
  cases h
  decide
theorem witness_CmdWritesFollowTheAcceptanceRule (w : Word) :
    (faulted [.host (.writeOf .cmd w)]).nextTurn = .host (.writeOf .cmd w) ∧ (faulted []).fault = true ∧
    (flying 0 [.host (.writeOf .cmd w)]).nextTurn = .host (.writeOf .cmd w) ∧ (flying 0 []).fault = false ∧
    (flying 0 []).busy = true ∧ State.reset.fault = false ∧ State.reset.busy = false ∧
    (flying 0 [.host (.readOf .cmd)]).nextTurn = .host (.readOf .cmd) := ⟨rfl, rfl, rfl, rfl, rfl, rfl, rfl, rfl⟩
theorem witness_CtrlWritesClearTheStickyBits :
    (faulted [.host (.writeOf .ctrl 0x00000001)]).nextTurn = .host (.writeOf .ctrl 0x00000001) ∧
    (0x00000001 : Word).getLsbD 0 = true ∧
    (faulted [.host (.writeOf .ctrl 0xFFFFFFFE)]).nextTurn = .host (.writeOf .ctrl 0xFFFFFFFE) ∧
    (0xFFFFFFFE : Word).getLsbD 0 = false ∧ (flying 0 [.host (.readOf .ctrl)]).nextTurn = .host (.readOf .ctrl) :=
  ⟨rfl, by decide, rfl, by decide, rfl⟩
theorem witness_StatusReadsItsFields (v : Word) :
    (faulted [.host (.readOf .status)]).nextTurn = .host (.readOf .status) ∧
    (faulted [.host (.writeOf .status v)]).nextTurn = .host (.writeOf .status v) := ⟨rfl, rfl⟩
theorem witness_ResultReadsAndWrites (v : Word) :
    (flying 0 [.host (.readOf .result)]).nextTurn = .host (.readOf .result) ∧ (flying 0 []).busy = true ∧
    (faulted [.host (.readOf .result)]).nextTurn = .host (.readOf .result) ∧ (faulted []).busy = false ∧
    (faulted [.host (.writeOf .result v)]).nextTurn = .host (.writeOf .result v) := ⟨rfl, rfl, rfl, rfl, rfl⟩

/-- An access of one beat. -/
def accessOf (addr bytes : Nat) : Access := { transfer := .read, addr := addr, bytes := bytes, beats := 1 }

theorem witness_OnlyAlignedWordAccessesAreServed :
    (flying 0 [.host (accessOf Config.base 4)]).nextTurn = .host (accessOf Config.base 4) ∧
    (0 < 4 * 1 ∧ Config.base + 12 < Config.base + 16 ∧ Config.base < Config.base + 12 + 4 * 1) ∧
    (4 = 4 ∧ 1 = 1 ∧ (Config.base + 12) % 4 = 0) ∧
    (0 < 1 * 1 ∧ Config.base + 15 < Config.base + 16 ∧ Config.base < Config.base + 15 + 1 * 1) ∧ ¬(1 = 4 ∧ 1 = 1) ∧
    ¬(0 < 4 * 1 ∧ Config.base + 16 < Config.base + 16 ∧ Config.base < Config.base + 16 + 4 * 1) := by
  have h : Config.base = 16 * Config.basePage := rfl
  exact ⟨rfl, by omega, by omega, by omega, by decide, by omega⟩
theorem witness_ByteLanesAreLittleEndian : 3 < 4 ∧ 7 < 8 := by decide
theorem witness_InFlightCommandIsProtected (w : Word) :
    (flying 0x00070303 [.host (.writeOf .cmd w)]).Inv ∧ (flying 0x00070303 [.host (.writeOf .cmd w)]).busy = true ∧
    (∀ j, j < 1 → ∃ a, (flying 0x00070303 [.host (.writeOf .cmd w)]).agenda[j]? = some (.host a)) ∧
    Reaches 1 (flying 0x00070303 [.host (.writeOf .cmd w)]) (setOverrun w (flying 0x00070303 [])) := by
  refine ⟨flying_inv _ _, rfl, fun j hj => ?_, _, ?_, rfl⟩
  · have : j = 0 := by omega
    subst this
    exact ⟨_, rfl⟩
  · rw [step_of_host rfl, hostAccess_writeOf]
    rfl
/-- Both ends of the agenda: with no turn left the block moves, and a reset after the accesses abandons the command. -/
theorem witness_AcceptedCommandCompletes (rest : List Turn) (a : Access) (ha : a = Access.readOf .status) :
    (flying 0x00070303 ([a].map Turn.host ++ rest)).busy = true ∧ (∀ x ∈ [a], x.target ≠ none ∨ x.touchesWindow = false) ∧
    ([] : List Turn).headD .block = .block ∧ [Turn.block].headD .block = .block ∧ [Turn.reset].headD .block = .reset := by
  subst ha
  refine ⟨rfl, fun x hx => .inl ?_, rfl, rfl, rfl⟩
  rw [List.mem_singleton.1 hx, target_readOf]
  simp
/-- The two kinds of word in flight, and an access that touches nothing. -/
theorem witness_AcceptedCommandCompletes_words :
    decode 0x00070303 = .ok (.mul 0x03 0x07) ∧ (∀ i, decode 0x0000000E ≠ .ok i) ∧
    Access.touchesWindow { transfer := .read, addr := Config.base + 16, bytes := 4, beats := 1 } = false := by
  refine ⟨by decide, fun i h => ?_, by simp [Access.touchesWindow]⟩
  have : (decode 0x0000000E).isOk = false := by decide
  rw [h] at this
  cases this
theorem witness_FaultBlocksEveryCommand (w : Word) :
    (faulted [.host (.writeOf .cmd w)]).fault = true ∧ (faulted [.host (.writeOf .cmd w)]).busy = false ∧
    (∀ u ∈ (faulted [.host (.writeOf .cmd w)]).agenda, u ≠ .reset ∧ ∀ a v, u = .host a → a.transfer = .write v →
      a.target = some .ctrl → v.getLsbD 0 = false) ∧
    Reaches 1 (faulted [.host (.writeOf .cmd w)]) (faulted []) := by
  refine ⟨rfl, rfl, fun u h => ?_, _, ?_, rfl⟩
  · simp only [faulted, List.mem_singleton] at h
    subst h
    refine ⟨by simp, fun a v ha _ ht => ?_⟩
    injection ha with ha
    subst ha
    simp at ht
  · rw [step_of_host rfl, hostAccess_writeOf]
    rfl
theorem witness_FaultAndFcodeChangeTogether :
    (flying 0x00000504 []).Inv ∧ (∃ t, step (flying 0x00000504 []) = .next t ∧ t.fault = true) ∧
    (faulted [Turn.clrf]).Inv ∧ ∃ t, step (faulted [Turn.clrf]) = .next t ∧ t.fault = false := by
  refine ⟨flying_inv _ _, ⟨_, rfl, by decide⟩, faulted_inv _, ?_⟩
  rw [step_of_host (a := .writeOf .ctrl 1) rfl, hostAccess_writeOf]
  exact ⟨_, rfl, by decide⟩
theorem witness_BusyChangesOnlyAtAcceptanceAndCompletion :
    (∃ t, step (flying 0x00070303 []) = .next t ∧ t.busy = false) ∧ (flying 0x00070303 []).nextTurn = .block ∧
    ∃ t, step { State.reset with agenda := [Turn.issue .nop] } = .next t ∧ t.busy = true := by
  refine ⟨⟨_, rfl, rfl⟩, rfl, ?_⟩
  rw [step_of_host (a := .writeOf .cmd (encode .nop)) rfl, hostAccess_writeOf]
  exact ⟨_, rfl, rfl⟩
theorem witness_OvrChangesOnlyAsItsRuleSays (w : Word) :
    (∃ t, step (flying 0 [.host (.writeOf .cmd w)]) = .next t ∧ t.ovr = true) ∧
    (∃ t, step { flying 0 [Turn.clrf] with ovr := true } = .next t ∧ t.ovr = false) ∧
    (∃ t, step { State.reset with ovr := true, agenda := [.host (.writeOf .cmd w)] } = .next t) ∧
    ({ State.reset with ovr := true } : State).Ready := by
  refine ⟨?_, ?_, ?_, rfl, rfl⟩
  · rw [step_of_host (a := .writeOf .cmd w) rfl, hostAccess_writeOf]
    exact ⟨_, rfl, rfl⟩
  · rw [step_of_host (a := .writeOf .ctrl 1) rfl, hostAccess_writeOf]
    exact ⟨_, rfl, by decide⟩
  · rw [step_of_host (a := .writeOf .cmd w) rfl, hostAccess_writeOf]
    exact ⟨_, rfl⟩
theorem witness_BuffersAndResultChangeOnlyAtCompletion :
    (∃ t, step (flying 0x02001D07 []) = .next t ∧ t.entryAt .coef 2 ≠ (flying 0x02001D07 []).entryAt .coef 2) ∧
    (∃ t, step (flying 0x002A0108 []) = .next t ∧ t.entryAt .px 0 ≠ (flying 0x002A0108 []).entryAt .px 0) ∧
    (∃ t, step (flying 0x00070303 []) = .next t ∧ t.result ≠ (flying 0x00070303 []).result) ∧
    (flying 0 []).nextTurn ≠ .reset := ⟨⟨_, rfl, by decide⟩, ⟨_, rfl, by decide⟩, ⟨_, rfl, by decide⟩, by decide⟩
theorem witness_GhostRecordKeepsEveryFault :
    (flying 0x00000504 []).Inv ∧ Turn.reset ∉ (flying 0x00000504 []).agenda ∧
    (∃ t, Reaches 1 (flying 0x00000504 []) t ∧ t.fcode = some .divZero) ∧
    ∃ t, Reaches 1 (flying 0x00070303 []) t ∧ t.NoCommandFaulted :=
  ⟨flying_inv _ _, by decide, ⟨_, ⟨_, rfl, rfl⟩, by decide⟩, _, ⟨_, rfl, rfl⟩, fun _ h => nomatch h⟩
theorem witness_EveryStepKeepsTheInvariant : State.reset.Inv ∧ step State.reset = .next State.reset := ⟨reset_inv, rfl⟩
theorem witness_CurIsNeverReadWhileIdle :
    State.reset.busy = false ∧ step State.reset = .next State.reset ∧
    ∃ r, step { State.reset with agenda := [.host { transfer := .read, addr := Config.base, bytes := 1, beats := 1 }] } =
      .refused r := by
  refine ⟨rfl, rfl, ?_⟩
  rw [step_of_host (a := { transfer := .read, addr := Config.base, bytes := 1, beats := 1 }) rfl]
  simp [hostAccess, Access.target, Access.touchesWindow]
theorem witness_PseudoInstructionsExpandToOneCommand : (0x53 : Byte) ≠ 0 ∧ (0x00 : Byte) = 0 := by decide
theorem witness_AssemblerWordsAndRefusals : 255 < 256 ∧ 511 < 512 ∧ 256 ≤ 256 ∧ 512 ≤ 512 := by decide

end Sys2Proof.Tests
end

/-! PROOFS. The decoder finds the row of a word by its OP, and so reads back every encoded command. -/

namespace Sys2Proof

/-- The word of every command meets the match and mask of its row (30_encoding.md R65). -/
theorem Laws.RowMatch.all (i : Instr) : Statement i := by
  cases i with
  | nop => exact nop
  | add a b => exact add a b
  | sub a b => exact sub a b
  | mul a b => exact mul a b
  | div a b => exact div a b
  | log a => exact log a
  | alog k => exact alog k
  | wcoef idx d => exact wcoef idx d
  | wpt idx x y => exact wpt idx x y
  | rcoef idx => exact rcoef idx
  | rpx idx => exact rpx idx
  | rpy idx => exact rpy idx
  | eval x n => exact eval x n
  | interp n => exact interp n

/-- The row at the index OP names is the command's own, and it takes the command's operands back from its word
(30_encoding.md R64, R65). -/
theorem opRows_at_opOf_encode (i : Instr) : ∃ r, opRows[(opOf (encode i)).toNat]? = some r ∧
    r.pattern = (Laws.RowMatch.row i).1 ∧ r.mask = (Laws.RowMatch.row i).2 ∧ r.operands (encode i) = i := by
  cases i <;> simp [encode, opRows, Laws.RowMatch.row]

/-- The rows of the opcode map have pairwise different OPs (30_encoding.md R65). -/
theorem opRows_eq_of_opOf_eq {r q : OpRow} (hr : r ∈ opRows) (hq : q ∈ opRows)
    (h : opOf r.pattern = opOf q.pattern) : r = q := by
  have hnodup : (opRows.map fun r => opOf r.pattern).Nodup := by decide
  exact List.inj_on_of_nodup_map hnodup hr hq h

/-- A row that admits a word is the one the decoder finds: no other row has the word's OP. -/
theorem decode_of_admits {r : OpRow} (hr : r ∈ opRows) {w : Word} (h : r.admits w = true) :
    decode w = .ok (r.operands w) := by
  obtain ⟨q, hq⟩ : ∃ q, opRows.find? (OpRow.admits · w) = some q :=
    Option.isSome_iff_exists.1 (List.find?_isSome.2 ⟨r, hr, h⟩)
  have hmem : q ∈ opRows := List.mem_of_find?_eq_some hq
  have hadmits : q.admits w = true := List.find?_some (p := (OpRow.admits · w)) hq
  have hop : opOf q.pattern = opOf r.pattern := by rw [← opOf_of_admits hmem hadmits, opOf_of_admits hr h]
  rw [decode, hq, opRows_eq_of_opOf_eq hmem hr hop]

/-- Decoding the word of a command gives the command back (30_encoding.md R63 to R65). -/
@[simp] theorem decode_encode (i : Instr) : decode (encode i) = .ok i := by
  obtain ⟨r, hr, hpattern, hmask, hoperands⟩ := opRows_at_opOf_encode i
  have hadmits : r.admits (encode i) = true := by
    rw [OpRow.admits, hpattern, hmask, beq_iff_eq]
    exact Laws.RowMatch.all i
  rw [decode_of_admits (List.mem_of_getElem? hr) hadmits, hoperands]

end Sys2Proof

/-! PROOFS. From the CMD write that a ready block accepts to the completion of the command. -/

namespace Sys2Proof.Machine

/-- A ready block accepts the word written to CMD (10_state.md R27). -/
theorem writeCmd_of_ready {s : State} (h : s.Ready) (w : Word) : writeCmd w s = setBusy w s := by
  obtain ⟨hbusy, hfault⟩ := h
  simp [writeCmd, hbusy, hfault]

/-- The host's turn to issue a command to a ready block (10_state.md R27, 30_encoding.md R60). -/
theorem step_of_issue {s : State} {i : Instr} (ht : s.nextTurn = Turn.issue i) (h : s.Ready) :
    step s = .next (setBusy (encode i) s.popTurn) := by
  rw [step_of_host ht, hostAccess_writeOf, writeReg, writeCmd_of_ready (s := s.popTurn) h]

/-- The block's turn with a command in flight is the command's completion (10_state.md R35). -/
theorem step_of_block_decoded {s : State} {i : Instr} (ht : s.nextTurn = .block) (hbusy : s.busy = true)
    (hdecode : decode s.cur = .ok i) : step s = exec i s.popTurn := by
  simp [step_of_block ht, blockTurn, completeCurrent, hbusy, hdecode]

/-- Settles O4: the CMD write is accepted because the block is ready, and the block's turn decodes CUR back to the
command. -/
theorem issuedCommandRunsAtTheBlocksTurn : Obligations.IssuedCommandRunsAtTheBlocksTurn := by
  intro s i rest hready hagenda
  constructor
  · have hturn : s.nextTurn = Turn.issue i := by rw [State.nextTurn, hagenda, List.headD_cons]
    rw [step_of_issue hturn hready, setBusy, State.popTurn, hagenda, List.tail_cons]
  · exact step_of_block_decoded rfl rfl (decode_encode i)

end Sys2Proof.Machine

/-! PROOFS. The completion step field by field, and what each command returns to it and leaves unchanged. -/

namespace Sys2Proof.Machine

section Complete

variable (r : Result) (s : State)

@[simp] theorem complete_busy : (complete r s).busy = false := by cases r <;> rfl
@[simp] theorem complete_ovr : (complete r s).ovr = s.ovr := by cases r <;> rfl
@[simp] theorem complete_cur : (complete r s).cur = s.cur := by cases r <;> rfl
@[simp] theorem complete_lost : (complete r s).lost = s.lost := by cases r <;> rfl
@[simp] theorem complete_agenda : (complete r s).agenda = s.agenda := by cases r <;> rfl
@[simp] theorem complete_lastRead : (complete r s).lastRead = s.lastRead := by cases r <;> rfl

/-- RESULT takes a value that Execute returns, and nothing else touches it (10_state.md R35). -/
theorem complete_result_cases : (complete r s).result = s.result ∨ ∃ v, r = .value v := by
  cases r with
  | value v => exact .inr ⟨v, rfl⟩
  | noValue => exact .inl rfl
  | fault c => exact .inl rfl

/-- FAULT and FCODE are written together, and only by a fault that Execute returns (10_state.md R31, R35). -/
theorem complete_fault_cases :
    ((complete r s).fault = s.fault ∧ (complete r s).fcode = s.fcode) ∨
      ∃ c, r = .fault c ∧ (complete r s).fault = true ∧ (complete r s).fcode = some c := by
  cases r with
  | value v => exact .inl ⟨rfl, rfl⟩
  | noValue => exact .inl ⟨rfl, rfl⟩
  | fault c => exact .inr ⟨c, rfl, rfl, rfl⟩

theorem record_prefix_complete : s.record <+: (complete r s).record := by
  cases r with
  | value v => exact List.prefix_rfl
  | noValue => exact List.prefix_rfl
  | fault c => exact List.prefix_append _ _

end Complete

namespace Effects

variable {i : Instr} {s m : State} {r : Result}

/-- Before its completion step a command touches the buffers, the ghost record and the free values alone. -/
theorem frame (h : Effects i s r m) :
    ∃ c x y more d, m = { s with coef := c, px := x, py := y, record := s.record ++ more, draws := d } := by
  cases h with
  | plain => exact ⟨_, _, _, [], _, by rw [List.append_nil]⟩
  | reads _ u => exact ⟨_, _, _, _, _, rfl⟩
  | coef idx d => exact ⟨_, _, _, [], _, by rw [List.append_nil]; rfl⟩
  | point idx x y => exact ⟨_, _, _, [], _, by rw [List.append_nil]; rfl⟩

/-- COEF changes only by WCOEF, at IDX (42_buffers.md R111). -/
theorem wcoef_of_entryAt_ne {k : Nat} (h : Effects i s r m) (hk : m.entryAt .coef k ≠ s.entryAt .coef k) :
    ∃ idx d, i = .wcoef idx d ∧ k = idx.toNat := by
  cases h with
  | plain => exact absurd rfl hk
  | reads _ u => exact absurd (entryAt_noteUninit ..) hk
  | coef idx d hi =>
    refine ⟨idx, d, hi, ?_⟩
    by_contra hne
    exact hk (entryAt_writeCoef_other _ _ _ _ _ fun h => hne h.2)
  | point idx x y => exact absurd (entryAt_writePoint_other _ _ _ _ _ _ (.inl rfl)) hk

/-- PX and PY change only by WPT, at IDX (42_buffers.md R112). -/
theorem wpt_of_entryAt_ne {b : Config.BufId} (hb : b ≠ .coef) {k : Nat} (h : Effects i s r m)
    (hk : m.entryAt b k ≠ s.entryAt b k) : ∃ idx x y, i = .wpt idx x y ∧ k = idx.toNat := by
  cases h with
  | plain => exact absurd rfl hk
  | reads _ u => exact absurd (entryAt_noteUninit ..) hk
  | coef idx d => exact absurd (entryAt_writeCoef_other _ _ _ _ _ fun h => hb h.1) hk
  | point idx x y hi =>
    refine ⟨idx, x, y, hi, ?_⟩
    by_contra hne
    exact hk (entryAt_writePoint_other _ _ _ _ _ _ (.inr hne))

end Effects

/-- What Execute returns for each command (30_encoding.md R68): `exec_returns` ties it to `exec`. -/
def executed (s : State) : Instr → Result
  | .nop | .wcoef _ _ | .wpt _ _ _ => .noValue
  | .add a b => .value (gfAdd a b)
  | .sub a b => .value (gfSub a b)
  | .mul a b => .value (gfMul a b)
  | .div a b => resultOf (gfDiv a b)
  | .log a => .value (logRom a)
  | .alog k => alogResult k
  | .rcoef idx => .value (s.operand .coef .only idx.toNat)
  | .rpx idx => .value (s.operand .px .only idx.toNat)
  | .rpy idx => .value (s.operand .py .only idx.toNat)
  | .eval x n => evalResult x n s
  | .interp n => interpResult n s

/-- `exec_shape` with the result named. -/
theorem exec_returns (i : Instr) (s : State) :
    ∃ m, exec i s = .next (complete (executed s i) m) ∧ Effects i s (executed s i) m := by
  cases i with
  | wcoef idx d => exact ⟨_, rfl, .coef idx d rfl⟩
  | wpt idx x y => exact ⟨_, rfl, .point idx x y rfl⟩
  | rcoef idx => exact ⟨_, rfl, .reads _ _⟩
  | rpx idx => exact ⟨_, rfl, .reads _ _⟩
  | rpy idx => exact ⟨_, rfl, .reads _ _⟩
  | eval x n => exact ⟨_, rfl, .reads _ _⟩
  | interp n => exact ⟨_, rfl, .reads _ _⟩
  | _ => exact ⟨_, rfl, .plain _⟩

/-- The commands that return a value are neither NOP nor a buffer write (42_buffers.md R110 to R112). -/
theorem returnsValue_of_executed {s : State} {i : Instr} {v : Byte} (h : executed s i = .value v) :
    i ≠ .nop ∧ (∀ idx d, i ≠ .wcoef idx d) ∧ ∀ idx x y, i ≠ .wpt idx x y := by
  refine ⟨?_, fun idx d => ?_, fun idx x y => ?_⟩ <;> rintro rfl <;> cases h

/-- The commands that can raise a fault (60_exceptions.md R140, R143). -/
theorem faults_of_executed {s : State} {i : Instr} {c : FaultCode} (h : executed s i = .fault c) :
    (∃ a, i = .div a 0) ∨ (∃ k, i = .alog k) ∨ (∃ x n, i = .eval x n) ∨ ∃ n, i = .interp n := by
  cases i with
  | div a b =>
    by_cases hb : b = 0
    · exact .inl ⟨a, by rw [hb]⟩
    · rw [executed, gfDiv_of_ne a hb] at h
      cases h
  | alog k => exact .inr (.inl ⟨k, rfl⟩)
  | eval x n => exact .inr (.inr (.inl ⟨x, n, rfl⟩))
  | interp n => exact .inr (.inr (.inr ⟨n, rfl⟩))
  | _ => cases h

/-- Settles O34, from what each command returns to the completion step and the frame of its effects. -/
theorem everyCommandCompletesAndKeepsItsFrame : Obligations.EveryCommandCompletesAndKeepsItsFrame := by
  intro i s
  obtain ⟨m, hexec, heff⟩ := exec_returns i s
  obtain ⟨_, _, _, more, _, hm⟩ := heff.frame
  refine ⟨_, hexec, complete_busy _ _, by simp [hm], by simp [hm], by simp [hm], by simp [hm], by simp [hm],
    fun k hk => ?_, fun k hk => ?_, ?_, ?_, ?_⟩
  · by_contra hne
    obtain ⟨idx, d, hi, hidx⟩ := heff.wcoef_of_entryAt_ne (by rwa [entryAt_complete] at hne)
    exact hk idx d hi hidx
  · have hpoint : ∀ b : Config.BufId, b ≠ .coef → m.entryAt b k = s.entryAt b k := by
      intro b hb
      by_contra hne
      obtain ⟨idx, x, y, hi, hidx⟩ := heff.wpt_of_entryAt_ne hb hne
      exact hk idx x y hi hidx
    exact ⟨by rw [entryAt_complete, hpoint .px (by decide)], by rw [entryAt_complete, hpoint .py (by decide)]⟩
  · obtain hresult | ⟨v, hv⟩ := complete_result_cases (executed s i) m
    · exact .inl (by rw [hresult, hm])
    · obtain ⟨hnop, hwcoef, hwpt⟩ := returnsValue_of_executed hv
      exact .inr ⟨hnop, hwcoef, hwpt, by simp [hv, hm], by simp [hv, hm]⟩
  · obtain ⟨hfault, hfcode⟩ | ⟨c, hc, hfault, hfcode⟩ := complete_fault_cases (executed s i) m
    · exact .inl ⟨by rw [hfault, hm], by rw [hfcode, hm]⟩
    · exact .inr ⟨hfault, by simp [hfcode], faults_of_executed hc⟩
  · obtain ⟨raised, hraised⟩ := record_prefix_complete (executed s i) m
    exact ⟨more ++ raised, by rw [← hraised, hm, List.append_assoc]⟩

end Sys2Proof.Machine

/-! PROOFS. A step inverted by what it changes of the block, and the invariant that every change keeps. -/

namespace Sys2Proof.Machine

/-- `m` is what the command in flight makes of `s` before it completes with `r`: a word that decodes has its command's
effects, and one that does not has none (60_exceptions.md R141). -/
def Prepared (s : State) (r : Result) (m : State) : Prop :=
  m = s.popTurn ∨ ∃ i, decode s.cur = .ok i ∧ Effects i s.popTurn r m

/-- What the command in flight leaves unchanged before its completion step. -/
theorem Prepared.frame {s m : State} {r : Result} (hm : Prepared s r m) :
    m.fault = s.fault ∧ m.fcode = s.fcode ∧ m.ovr = s.ovr ∧ m.result = s.result := by
  obtain rfl | ⟨i, -, he⟩ := hm
  · exact ⟨rfl, rfl, rfl, rfl⟩
  · obtain ⟨_, _, _, _, _, rfl⟩ := he.frame
    exact ⟨rfl, rfl, rfl, rfl⟩

/-- What a step that answered a next state changed of the block: `Moved` with the accesses that change nothing joined into
one case, and the host writes split by their effect. -/
inductive Changed (s t : State) : Prop where
  | quiet (l : Option Word) (d : Nat) (hidle : s.nextTurn = .block → s.busy = false)
      (h : t = { s.popTurn with lastRead := l, draws := d })
  | accepted (a : Access) (w : Word) (ht : s.nextTurn = .host a) (hr : a.target = some .cmd) (hk : a.transfer = .write w)
      (hf : s.fault = false) (hb : s.busy = false) (h : t = setBusy w s.popTurn)
  | overrun (a : Access) (w : Word) (ht : s.nextTurn = .host a) (hr : a.target = some .cmd) (hk : a.transfer = .write w)
      (hf : s.fault = false) (hb : s.busy = true) (h : t = setOverrun w s.popTurn)
  | cleared (a : Access) (v : Word) (ht : s.nextTurn = .host a) (hr : a.target = some .ctrl) (hk : a.transfer = .write v)
      (hv : v.getLsbD 0 = true) (h : t = clearFlags s.popTurn)
  | completed (r : Result) (m : State) (ht : s.nextTurn = .block) (hb : s.busy = true) (hm : Prepared s r m)
      (h : t = complete r m)
  | reset (ht : s.nextTurn = .reset) (h : t = resetBlock s.popTurn)

/-- The inversion of `step` by what changes. -/
theorem step_changed {s t : State} (hstep : step s = .next t) : Changed s t := by
  cases step_next hstep with
  | read a r ht hr hk h =>
    obtain ⟨l, d, hread⟩ := readReg_frame r s.popTurn
    exact .quiet l d (by simp [ht]) (h.trans hread)
  | wrote a r v ht hr hk h =>
    obtain hw | ⟨rfl, hf, hb, hw⟩ | ⟨rfl, hf, hb, hw⟩ | ⟨rfl, hv, hw⟩ := writeReg_cases r v s.popTurn
    · exact .quiet _ _ (by simp [ht]) (h.trans hw)
    · exact .overrun a v ht hr hk hf hb (h.trans hw)
    · exact .accepted a v ht hr hk hf hb (h.trans hw)
    · exact .cleared a v ht hr hk hv (h.trans hw)
  | outside a ht hr h => exact .quiet _ _ (by simp [ht]) h
  | completed i ht hb hd h =>
    obtain ⟨r, m, h, he⟩ := exec_next h
    exact .completed r m ht hb (.inr ⟨i, hd, he⟩) h
  | illegal e ht hb hd h => exact .completed (.fault .illegalCmd) _ ht hb (.inl rfl) h
  | idle ht hb h => exact .quiet _ _ (fun _ => hb) h
  | reset ht h => exact .reset ht h

namespace State.Inv

variable {s : State}

theorem quiet (hs : s.Inv) (l : Option Word) (d : Nat) : ({ s.popTurn with lastRead := l, draws := d } : State).Inv :=
  { hs with }

theorem setBusy (hs : s.Inv) (hf : s.fault = false) (w : Word) : (setBusy w s.popTurn).Inv :=
  { hs with busy_fault := by simp [hf] }

theorem setOverrun (hs : s.Inv) (w : Word) : (setOverrun w s.popTurn).Inv :=
  { hs with ovr_lost := by simp }

theorem clearFlags (hs : s.Inv) : (clearFlags s.popTurn).Inv :=
  { hs with
    busy_fault := by simp
    fault_fcode := rfl
    ovr_lost := by simp
    fault_recorded := by simp }

theorem resetBlock : (resetBlock s).Inv where
  busy_fault := by simp
  fault_fcode := rfl
  coef_wf := rfl
  px_wf := rfl
  py_wf := rfl
  same_points := rfl
  ovr_lost := by simp
  fault_recorded := by simp

/-- A command's effects keep the buffers canonical, and WPT writes PX and PY at one index. -/
theorem effects {i : Instr} {m : State} {r : Result} (hs : s.Inv) (he : Effects i s r m) : m.Inv := by
  cases he with
  | plain => exact hs
  | reads _ u =>
    exact { hs with fault_recorded := fun c hc => List.mem_append_left _ (hs.fault_recorded c hc) }
  | coef idx d => exact { hs with coef_wf := Memory.wf_write _ _ _ hs.coef_wf }
  | point idx x y =>
    exact { hs with
      px_wf := Memory.wf_write _ _ _ hs.px_wf
      py_wf := Memory.wf_write _ _ _ hs.py_wf
      same_points := Memory.keys_write _ _ _ _ _ hs.same_points }

/-- The command in flight keeps the invariant up to its completion step. -/
theorem prepared {m : State} {r : Result} (hs : s.Inv) (hm : Prepared s r m) : m.Inv := by
  have hpop : s.popTurn.Inv := hs.quiet _ _
  obtain rfl | ⟨i, -, he⟩ := hm
  · exact hpop
  · exact hpop.effects he

/-- BUSY is cleared at completion, and a fault sets FAULT and FCODE together and is recorded. -/
theorem complete (hs : s.Inv) (r : Result) : (complete r s).Inv := by
  cases r with
  | value v => exact { hs with busy_fault := by simp }
  | noValue => exact { hs with busy_fault := by simp }
  | fault c =>
    exact { hs with
      busy_fault := by simp
      fault_fcode := rfl
      fault_recorded := by simp }

end State.Inv

/-- Settles O52: every change that a step can make keeps the invariant. -/
theorem everyStepKeepsTheInvariant : Obligations.EveryStepKeepsTheInvariant := by
  intro s t hs hstep
  cases step_changed hstep with
  | quiet l d hidle h => exact h ▸ hs.quiet l d
  | accepted a w ht hr hk hf hb h => exact h ▸ hs.setBusy hf w
  | overrun a w ht hr hk hf hb h => exact h ▸ hs.setOverrun w
  | cleared a v ht hr hk hv h => exact h ▸ hs.clearFlags
  | completed r m ht hb hm h => exact h ▸ (hs.prepared hm).complete r
  | reset ht h => exact h ▸ .resetBlock

end Sys2Proof.Machine

/-! PROOFS. When FAULT, FCODE, BUSY, OVR, RESULT and the buffers change: each clause is read off the changes a step can
make. -/

namespace Sys2Proof.Machine

/-- A legal host read is served (20_memory.md R42). -/
theorem step_of_read {s : State} {a : Access} {r : Reg} (ht : s.nextTurn = .host a) (hr : a.target = some r)
    (hk : a.transfer = .read) : step s = .next (readReg r s.popTurn) := by
  rw [step_of_host ht, hostAccess, hr, hk]

/-- A legal host write is served (20_memory.md R42). -/
theorem step_of_write {s : State} {a : Access} {r : Reg} {v : Word} (ht : s.nextTurn = .host a) (hr : a.target = some r)
    (hk : a.transfer = .write v) : step s = .next (writeReg r v s.popTurn) := by
  rw [step_of_host ht, hostAccess, hr, hk]

/-- With FAULT = 1 a CMD write is discarded (10_state.md R27). -/
theorem writeCmd_of_fault {s : State} (hf : s.fault = true) (w : Word) : writeCmd w s = s := by
  simp [writeCmd, hf]

/-- A CMD write while BUSY = 1 sets OVR (10_state.md R27). -/
theorem writeCmd_of_busy {s : State} (hf : s.fault = false) (hb : s.busy = true) (w : Word) :
    writeCmd w s = setOverrun w s := by
  simp [writeCmd, hf, hb]

/-- The state after a CMD write. -/
theorem eq_writeCmd_of_step {s t : State} {a : Access} {w : Word} (hstep : step s = .next t) (ht : s.nextTurn = .host a)
    (hr : a.target = some .cmd) (hk : a.transfer = .write w) : t = writeCmd w s.popTurn := by
  rw [step_of_write ht hr hk] at hstep
  exact (Host.Outcome.next.inj hstep).symm

/-- FAULT becomes 1 only at a completion, which clears BUSY and gives FCODE its code (10_state.md R31). -/
theorem fault_set_at_completion {s t : State} (hc : Changed s t) (hs : s.fault = false) (hft : t.fault = true) :
    s.nextTurn = .block ∧ s.busy = true ∧ t.busy = false ∧ t.fcode ≠ none := by
  cases hc with
  | completed r m ht hb hm h =>
    subst h
    obtain ⟨hmf, -, -, -⟩ := hm.frame
    obtain ⟨hfault, -⟩ | ⟨c, -, -, hfcode⟩ := complete_fault_cases r m
    · simp [hfault, hmf, hs] at hft
    · exact ⟨ht, hb, complete_busy r m, by simp [hfcode]⟩
  | _ => simp_all -- no other change sets FAULT

/-- FAULT becomes 0 only with FCODE, by reset or a CTRL write with bit 0 = 1 (10_state.md R31). -/
theorem fault_cleared_by_clrf_or_reset {s t : State} (hc : Changed s t) (hs : s.fault = true) (hft : t.fault = false) :
    t.fcode = none ∧ (s.nextTurn = .reset ∨ ∃ a v, s.nextTurn = .host a ∧ a.target = some .ctrl ∧
      a.transfer = .write v ∧ v.getLsbD 0 = true) := by
  cases hc with
  | cleared a v ht hr hk hv h => exact ⟨by simp [h], .inr ⟨a, v, ht, hr, hk, hv⟩⟩
  | reset ht h => exact ⟨by simp [h], .inl ht⟩
  | completed r m ht hb hm h =>
    subst h
    obtain ⟨hmf, -, -, -⟩ := hm.frame
    obtain ⟨hfault, -⟩ | ⟨c, -, hfault, -⟩ := complete_fault_cases r m <;> simp [hfault, hmf, hs] at hft
  | _ => simp_all -- no other change touches FAULT

/-- In a state that meets the invariant FCODE changes only when FAULT does (10_state.md R31). -/
theorem fcode_eq_of_fault_eq {s t : State} (hinv : s.Inv) (hc : Changed s t) (hft : s.fault = t.fault) :
    s.fcode = t.fcode := by
  have hnone : s.fault = false → s.fcode = none := fun h => by simpa [h] using hinv.fault_fcode
  cases hc with
  | quiet l d hidle h => simp [h]
  | accepted a w ht hr hk hf hb h => simp [h]
  | overrun a w ht hr hk hf hb h => simp [h]
  | cleared a v ht hr hk hv h => subst h; exact hnone hft
  | completed r m ht hb hm h =>
    subst h
    obtain ⟨-, hmc, -, -⟩ := hm.frame
    obtain ⟨-, hfcode⟩ | ⟨c, -, hfault, -⟩ := complete_fault_cases r m
    · rw [hfcode, hmc]
    · exact absurd ⟨hb, hft.trans hfault⟩ hinv.busy_fault
  | reset ht h => subst h; exact hnone hft

/-- Settles O46, clause by clause. -/
theorem faultAndFcodeChangeTogether : Obligations.FaultAndFcodeChangeTogether := by
  intro s t hinv hstep
  have hc : Changed s t := step_changed hstep
  refine ⟨fault_set_at_completion hc, fault_cleared_by_clrf_or_reset hc, fcode_eq_of_fault_eq hinv hc,
    fun hf a v ht hr hk => ?_⟩
  rw [eq_writeCmd_of_step hstep ht hr hk, writeCmd_of_fault (s := s.popTurn) hf]
  rfl

/-- BUSY becomes 1 only by the acceptance of a CMD write (10_state.md R30). -/
theorem busy_set_at_acceptance {s t : State} (hc : Changed s t) (hs : s.busy = false) (hbt : t.busy = true) :
    s.fault = false ∧ ∃ a w, s.nextTurn = .host a ∧ a.target = some .cmd ∧ a.transfer = .write w ∧ t.cur = w := by
  cases hc with
  | accepted a w ht hr hk hf hb h => exact ⟨hf, a, w, ht, hr, hk, by simp [h]⟩
  | _ => simp_all -- no other change sets BUSY

/-- BUSY becomes 0 only at the block's turn or a reset (10_state.md R30). -/
theorem busy_cleared_by_block_or_reset {s t : State} (hc : Changed s t) (hs : s.busy = true) (hbt : t.busy = false) :
    s.nextTurn = .block ∨ s.nextTurn = .reset := by
  cases hc with
  | completed r m ht hb hm h => exact .inl ht
  | reset ht h => exact .inr ht
  | _ => simp_all -- no other change clears BUSY

/-- The block's turn leaves the block idle (10_state.md R35). -/
theorem busy_false_of_block {s t : State} (hc : Changed s t) (ht : s.nextTurn = .block) : t.busy = false := by
  cases hc with
  | completed r m _ hb hm h => simp [h]
  | _ => simp_all -- no other change is the turn of a busy block

/-- Settles O47, clause by clause. -/
theorem busyChangesOnlyAtAcceptanceAndCompletion : Obligations.BusyChangesOnlyAtAcceptanceAndCompletion := by
  intro s t hstep
  have hc : Changed s t := step_changed hstep
  exact ⟨busy_set_at_acceptance hc, busy_cleared_by_block_or_reset hc, fun _ => busy_false_of_block hc⟩

/-- OVR becomes 1 only by a CMD write while BUSY = 1 and FAULT = 0, and no fault comes with it (10_state.md R32). -/
theorem ovr_set_by_cmd_while_busy {s t : State} (hc : Changed s t) (hs : s.ovr = false) (hot : t.ovr = true) :
    s.busy = true ∧ s.fault = false ∧ t.fault = false ∧
      ∃ a w, s.nextTurn = .host a ∧ a.target = some .cmd ∧ a.transfer = .write w := by
  cases hc with
  | overrun a w ht hr hk hf hb h => exact ⟨hb, hf, by simp [h, hf], a, w, ht, hr, hk⟩
  | completed r m ht hb hm h =>
    obtain ⟨-, -, hmo, -⟩ := hm.frame
    simp [h, hmo, hs] at hot
  | _ => simp_all -- no other change sets OVR

/-- OVR becomes 0 only by reset or a CTRL write with bit 0 = 1 (10_state.md R32). -/
theorem ovr_cleared_by_clrf_or_reset {s t : State} (hc : Changed s t) (hs : s.ovr = true) (hot : t.ovr = false) :
    s.nextTurn = .reset ∨ ∃ a v, s.nextTurn = .host a ∧ a.target = some .ctrl ∧ a.transfer = .write v ∧
      v.getLsbD 0 = true := by
  cases hc with
  | cleared a v ht hr hk hv h => exact .inr ⟨a, v, ht, hr, hk, hv⟩
  | reset ht h => exact .inl ht
  | completed r m ht hb hm h =>
    obtain ⟨-, -, hmo, -⟩ := hm.frame
    simp [h, hmo, hs] at hot
  | _ => simp_all -- no other change clears OVR

/-- Settles O48: when OVR changes, then what a CMD write does in a busy and in a ready block. -/
theorem ovrChangesOnlyAsItsRuleSays : Obligations.OvrChangesOnlyAsItsRuleSays := by
  intro s t hstep
  have hc : Changed s t := step_changed hstep
  refine ⟨ovr_set_by_cmd_while_busy hc, fun hb hf a w ht hr hk => ?_, ovr_cleared_by_clrf_or_reset hc,
    fun _ hready a w ht hr hk => ?_⟩
  · rw [eq_writeCmd_of_step hstep ht hr hk, writeCmd_of_busy (s := s.popTurn) hf hb, setOverrun_ovr]
  · rw [eq_writeCmd_of_step hstep ht hr hk, writeCmd_of_ready (s := s.popTurn) hready]
    exact ⟨rfl, rfl⟩

/-- Apart from reset, only a completion changes a buffer entry or RESULT (10_state.md R25, R26, R28). -/
theorem completed_or_data_eq {s t : State} (hc : Changed s t) (hreset : s.nextTurn ≠ .reset) :
    (s.nextTurn = .block ∧ s.busy = true ∧ ∃ r m, t = complete r m ∧ Prepared s r m) ∨
    (t.result = s.result ∧ ∀ b, t.entryAt b = s.entryAt b) := by
  cases hc with
  | completed r m ht hb hm h => exact .inl ⟨ht, hb, r, m, h, hm⟩
  | reset ht h => exact absurd ht hreset
  | quiet _ _ _ h => subst h; exact .inr ⟨rfl, fun b => by cases b <;> rfl⟩
  | accepted _ _ _ _ _ _ _ h => subst h; exact .inr ⟨rfl, fun b => by cases b <;> rfl⟩
  | overrun _ _ _ _ _ _ _ h => subst h; exact .inr ⟨rfl, fun b => by cases b <;> rfl⟩
  | cleared _ _ _ _ _ _ h => subst h; exact .inr ⟨rfl, fun b => by cases b <;> rfl⟩

/-- Apart from reset, a COEF entry changes only when WCOEF of that index completes (10_state.md R25). -/
theorem coef_changed_at_wcoef {s t : State} (hc : Changed s t) (hreset : s.nextTurn ≠ .reset) {k : Nat}
    (hk : t.entryAt .coef k ≠ s.entryAt .coef k) :
    s.nextTurn = .block ∧ s.busy = true ∧ ∃ idx d, decode s.cur = .ok (.wcoef idx d) ∧ k = idx.toNat := by
  obtain ⟨ht, hb, r, m, rfl, hm⟩ | ⟨-, hentries⟩ := completed_or_data_eq hc hreset
  · rw [entryAt_complete, ← entryAt_popTurn] at hk
    obtain rfl | ⟨i, hd, he⟩ := hm
    · exact absurd rfl hk
    · obtain ⟨idx, d, rfl, hidx⟩ := he.wcoef_of_entryAt_ne hk
      exact ⟨ht, hb, idx, d, hd, hidx⟩
  · exact absurd (congrFun (hentries .coef) k) hk

/-- Apart from reset, a PX or PY entry changes only when WPT of that index completes (10_state.md R26). -/
theorem point_changed_at_wpt {s t : State} (hc : Changed s t) (hreset : s.nextTurn ≠ .reset) {b : Config.BufId}
    (hpoint : b ≠ .coef) {k : Nat} (hk : t.entryAt b k ≠ s.entryAt b k) :
    s.nextTurn = .block ∧ s.busy = true ∧ ∃ idx x y, decode s.cur = .ok (.wpt idx x y) ∧ k = idx.toNat := by
  obtain ⟨ht, hb, r, m, rfl, hm⟩ | ⟨-, hentries⟩ := completed_or_data_eq hc hreset
  · rw [entryAt_complete, ← entryAt_popTurn] at hk
    obtain rfl | ⟨i, hd, he⟩ := hm
    · exact absurd rfl hk
    · obtain ⟨idx, x, y, rfl, hidx⟩ := he.wpt_of_entryAt_ne hpoint hk
      exact ⟨ht, hb, idx, x, y, hd, hidx⟩
  · exact absurd (congrFun (hentries b) k) hk

/-- Apart from reset, RESULT changes only at a completion without a fault (10_state.md R28). -/
theorem result_changed_without_fault {s t : State} (hc : Changed s t) (hreset : s.nextTurn ≠ .reset)
    (hne : t.result ≠ s.result) : s.nextTurn = .block ∧ s.busy = true ∧ t.fault = s.fault ∧ t.fcode = s.fcode := by
  obtain ⟨ht, hb, r, m, rfl, hm⟩ | ⟨hresult, -⟩ := completed_or_data_eq hc hreset
  · obtain ⟨hmf, hmc, -, hmr⟩ := hm.frame
    obtain hresult | ⟨v, rfl⟩ := complete_result_cases r m
    · exact absurd (hresult.trans hmr) hne
    · exact ⟨ht, hb, hmf, hmc⟩
  · exact absurd hresult hne

/-- Settles O49, one kind of data at a time. -/
theorem buffersAndResultChangeOnlyAtCompletion : Obligations.BuffersAndResultChangeOnlyAtCompletion := by
  intro s t hstep hreset
  have hc : Changed s t := step_changed hstep
  exact ⟨fun k => coef_changed_at_wcoef hc hreset,
    fun k hk => hk.elim (point_changed_at_wpt hc hreset (by decide)) (point_changed_at_wpt hc hreset (by decide)),
    result_changed_without_fault hc hreset⟩

end Sys2Proof.Machine

/-! PROOFS. The host registers, one legal access at a time (10_state.md R27 to R33), and the block's turn from the bytes of
CUR. -/

namespace Sys2Proof.Machine

theorem step_of_readOf {s : State} {r : Reg} (ht : s.nextTurn = .host (.readOf r)) :
    step s = .next (readReg r s.popTurn) :=
  step_of_read ht (target_readOf r) rfl

theorem step_of_writeOf {s : State} {r : Reg} {v : Word} (ht : s.nextTurn = .host (.writeOf r v)) :
    step s = .next (writeReg r v s.popTurn) :=
  step_of_write ht (target_writeOf r v) rfl

/-- Settles O37, by the three cases of a CMD write. -/
theorem cmdWritesFollowTheAcceptanceRule : Obligations.CmdWritesFollowTheAcceptanceRule := by
  intro w s
  refine ⟨fun ht => ?_, step_of_readOf⟩
  rw [step_of_writeOf ht, writeReg]
  refine ⟨fun hf => ?_, fun hf hb => ?_, fun hf hb => ?_⟩
  · rw [writeCmd_of_fault (s := s.popTurn) hf]
    rfl
  · rw [writeCmd_of_busy (s := s.popTurn) hf hb]
    rfl
  · rw [writeCmd_of_ready (s := s.popTurn) ⟨hb, hf⟩]
    rfl

/-- Settles O38, by bit 0 of the written word. -/
theorem ctrlWritesClearTheStickyBits : Obligations.CtrlWritesClearTheStickyBits := by
  intro v s
  refine ⟨fun ht => ?_, step_of_readOf⟩
  rw [step_of_writeOf ht, writeReg, writeCtrl]
  refine ⟨fun hv => ?_, fun hv => ?_⟩
  · rw [if_pos hv]
    rfl
  · rw [hv]
    rfl

section StatusWord

variable (s : State)

theorem statusWord_busy : s.statusWord.getLsbD 0 = s.busy := by simp [State.statusWord, placeAt]

theorem statusWord_fault : s.statusWord.getLsbD 1 = s.fault := by simp [State.statusWord, placeAt]

theorem statusWord_ovr : s.statusWord.getLsbD 2 = s.ovr := by simp [State.statusWord, placeAt]

theorem statusWord_bit3 : s.statusWord.getLsbD 3 = false := by simp [State.statusWord, placeAt]

theorem statusWord_fcode : s.statusWord.extractLsb' 4 4 = s.fcodeBits := by
  refine field_eq_of_bits fun k => ?_
  fin_cases k <;> simp [State.statusWord, placeAt]

theorem statusWord_upper : s.statusWord.extractLsb' 8 24 = 0 := by
  refine field_eq_of_bits fun k => ?_
  fin_cases k <;> simp [State.statusWord, placeAt]

end StatusWord

/-- Settles O39, from the fields of STATUS (10_state.md R29) and the codes of 60_exceptions.md R140. -/
theorem statusReadsItsFields : Obligations.StatusReadsItsFields := by
  intro s
  refine ⟨fun ht => ⟨s.statusWord, step_of_readOf ht, statusWord_busy s, statusWord_fault s, statusWord_ovr s,
    statusWord_bit3 s, statusWord_upper s, ?_⟩, fun v ht => step_of_writeOf ht, by decide⟩
  rw [statusWord_fcode, State.fcodeBits]
  cases s.fcode with
  | none => rfl
  | some c => cases c <;> rfl

/-- RESULT reads as RES zero-extended while the block is idle (10_state.md R28). -/
theorem readResult_of_idle {s : State} (hb : s.busy = false) :
    readResult s = { s with lastRead := some s.resultWord } := by
  simp [readResult, hb]

/-- RESULT reads as a free value while a command is in flight (70_reset_and_hazards.md R176). -/
theorem readResult_of_busy {s : State} (hb : s.busy = true) :
    readResult s = { s with lastRead := some (Config.busyResult s.draws), draws := s.draws + 1 } := by
  simp [readResult, hb]

/-- Settles O40, idle and busy. -/
theorem resultReadsAndWrites : Obligations.ResultReadsAndWrites := by
  intro s
  refine ⟨fun ht => ⟨fun hb => ⟨s.resultWord, ?_, ?_⟩, fun hb => ⟨Config.busyResult s.draws, ?_⟩⟩,
    fun v ht => step_of_writeOf ht⟩
  · rw [step_of_readOf ht, readReg, readResult_of_idle (s := s.popTurn) hb]
    rfl
  · exact BitVec.toNat_setWidth_of_le (by decide)
  · rw [step_of_readOf ht, readReg, readResult_of_busy (s := s.popTurn) hb]
    rfl

/-- The bytes of a word decode as the word does, and none is left over (20_memory.md R43). -/
theorem decodeBytes_bytesOfWord (w : Word) : decodeBytes (bytesOfWord w) = (decode w).map (·, []) := by
  rw [bytesOfWord, decodeBytes, wordOfBytes_lanes]
  cases decode w <;> rfl

/-- Settles O2: CUR decodes to the command because its bytes do. -/
theorem stepRunsTheDecodedCommand : Obligations.StepRunsTheDecodedCommand := by
  intro s i ht hb hbytes
  have hdecode : decode s.cur = .ok i := by
    rw [decodeBytes_bytesOfWord] at hbytes
    cases hd : decode s.cur with
    | error e => simp [hd, Except.map] at hbytes
    | ok j => simpa [hd, Except.map] using hbytes
  exact step_of_block_decoded ht hb hdecode

end Sys2Proof.Machine

/-! PROOFS. An idle block does not look at CUR (10_state.md R34). -/

namespace Sys2Proof.Machine

/-- The only step that is refused is an access inside the window that is not legal (20_memory.md R42). -/
theorem step_refused {s : State} {r : Refusal} (h : step s = .refused r) :
    ∃ a, s.nextTurn = .host a ∧ a.target = none ∧ a.touchesWindow = true ∧
      r = .illegalAccess a (s.record ++ [.refusedAccess]) := by
  cases ht : s.nextTurn with
  | host a =>
    rw [step_of_host ht, hostAccess] at h
    split at h
    · split at h <;> cases h
    · rename_i hn
      split at h
      · rename_i hw
        exact ⟨a, rfl, hn, hw, (Host.Outcome.refused.inj h).symm⟩
      · cases h
  | block =>
    rw [step_of_block ht, blockTurn] at h
    split at h
    · rw [completeCurrent] at h
      split at h
      · rename_i i _
        obtain ⟨r, m, hexec, -⟩ := exec_shape i s.popTurn
        simp [hexec] at h
      · cases h
    · cases h
  | reset =>
    rw [step_of_reset ht] at h
    cases h

theorem step_of_illegal_access {s : State} {a : Access} (ht : s.nextTurn = .host a) (hn : a.target = none)
    (hw : a.touchesWindow = true) : step s = .refused (.illegalAccess a (s.record ++ [.refusedAccess])) := by
  rw [step_of_host ht, hostAccess, hn]
  exact if_pos hw

theorem step_of_outside {s : State} {a : Access} (ht : s.nextTurn = .host a) (hn : a.target = none)
    (hw : a.touchesWindow = false) : step s = .next s.popTurn := by
  rw [step_of_host ht, hostAccess, hn]
  exact if_neg (by simp [hw])

/-- No host read returns anything of CUR. -/
theorem readReg_withCur (r : Reg) (s : State) (w : Word) :
    readReg r { s with cur := w } = { readReg r s with cur := w } := by
  cases r with
  | result => cases hb : s.busy <;> simp [readReg, readResult, hb, State.resultWord]
  | _ => rfl

/-- `o` is what a step answers where only CUR may differ from `t`, and does not once a command is accepted. -/
def NextButCur (t : State) (o : Host.Outcome State Fault Refusal) : Prop :=
  ∃ u, o = .next { t with cur := u } ∧ (t.busy = true → u = t.cur)

/-- A write to an idle block does not look at CUR, and an accepted one overwrites it (10_state.md R27). -/
theorem writeReg_withCur {s : State} (hb : s.busy = false) (r : Reg) (v w : Word) :
    NextButCur (writeReg r v s) (.next (writeReg r v { s with cur := w })) := by
  have hidle : s.busy = true → w = s.cur := fun h => absurd (hb.symm.trans h) Bool.false_ne_true
  cases r with
  | cmd =>
    simp only [writeReg]
    by_cases hf : s.fault = true
    · rw [writeCmd_of_fault hf, writeCmd_of_fault (s := { s with cur := w }) hf]
      exact ⟨w, rfl, hidle⟩
    · have hready : s.Ready := ⟨hb, Bool.eq_false_iff.2 hf⟩
      rw [writeCmd_of_ready hready, writeCmd_of_ready (s := { s with cur := w }) hready]
      exact ⟨v, rfl, fun _ => rfl⟩
  | result => exact ⟨w, rfl, hidle⟩
  | status => exact ⟨w, rfl, hidle⟩
  | ctrl =>
    simp only [writeReg, writeCtrl]
    cases v.getLsbD 0 with
    | true => exact ⟨w, rfl, hidle⟩
    | false => exact ⟨w, rfl, hidle⟩

/-- A step of an idle block goes on alike for every CUR. -/
theorem step_withCur {s t : State} (hb : s.busy = false) (hstep : step s = .next t) (w : Word) :
    NextButCur t (step { s with cur := w }) := by
  cases step_next hstep with
  | read a r ht hr hk h =>
    rw [h, step_of_read (s := { s with cur := w }) ht hr hk]
    refine ⟨w, congrArg _ (readReg_withCur r s.popTurn w), fun hbusy => ?_⟩
    obtain ⟨l, d, hread⟩ := readReg_frame r s.popTurn
    simp [hread, hb] at hbusy
  | wrote a r v ht hr hk h =>
    rw [h, step_of_write (s := { s with cur := w }) ht hr hk]
    exact writeReg_withCur (s := s.popTurn) hb r v w
  | outside a ht hr h =>
    cases hw : a.touchesWindow with
    | true => simp [step_of_illegal_access ht hr hw] at hstep
    | false =>
      rw [h, step_of_outside (s := { s with cur := w }) ht hr hw]
      exact ⟨w, rfl, by simp [hb]⟩
  | completed i ht hbusy => simp [hb] at hbusy
  | illegal e ht hbusy => simp [hb] at hbusy
  | idle ht _ h =>
    rw [h, step_of_block (s := { s with cur := w }) ht]
    exact ⟨w, if_neg (by simp [hb]), by simp [hb]⟩
  | reset ht h =>
    rw [h, step_of_reset (s := { s with cur := w }) ht]
    exact ⟨0, rfl, fun _ => rfl⟩

/-- Settles O53: an idle block goes on, or refuses, alike for every CUR. -/
theorem curIsNeverReadWhileIdle : Obligations.CurIsNeverReadWhileIdle := by
  intro s w hb
  refine ⟨fun t hstep => step_withCur hb hstep w, fun r hrefused => ?_⟩
  obtain ⟨a, ht, hn, hw, rfl⟩ := step_refused hrefused
  exact step_of_illegal_access (s := { s with cur := w }) ht hn hw

end Sys2Proof.Machine

/-! PROOFS. Which accesses the window serves, and its byte lanes (20_memory.md R40 to R43). -/

namespace Sys2Proof.Machine

/-- The window is aligned to its own 16 bytes (20_memory.md R40). -/
theorem base_mod_sixteen : Config.base % 16 = 0 := Nat.mul_mod_right 16 _

/-- A register starts at every multiple of 4 in the 16 bytes of the window (20_memory.md R40). -/
theorem exists_regAt_iff (off : Nat) : (∃ r, regAt off = some r) ↔ off % 4 = 0 ∧ off < 16 := by
  rw [← Option.isSome_iff_exists]
  constructor
  · contrapose!
    intro h
    have hnone : regAt off = none := by
      rw [regAt, if_neg (by omega), if_neg (by omega), if_neg (by omega), if_neg (by omega)]
    simp [hnone]
  · rintro ⟨haligned, hlt⟩
    obtain rfl | rfl | rfl | rfl : off = 0 ∨ off = 4 ∨ off = 8 ∨ off = 12 := by omega
    all_goals rfl

theorem touchesWindow_iff (a : Access) : a.touchesWindow = true ↔
    0 < a.bytes * a.beats ∧ a.addr < Config.base + 16 ∧ Config.base < a.addr + a.bytes * a.beats := by
  simp [Access.touchesWindow, and_assoc]

/-- The accesses that reach a register are the naturally aligned 32-bit ones that touch the window (20_memory.md R42). -/
theorem exists_target_iff (a : Access) : (∃ r, a.target = some r) ↔
    (a.bytes = 4 ∧ a.beats = 1 ∧ a.addr % 4 = 0) ∧ a.touchesWindow = true := by
  have hbase : Config.base % 16 = 0 := base_mod_sixteen
  rw [touchesWindow_iff, Access.target]
  split
  next h =>
    obtain ⟨hbytes, hbeats, haddr⟩ := h
    rw [exists_regAt_iff, hbytes, hbeats]
    omega
  next h =>
    refine iff_of_false (by simp) fun ⟨⟨hbytes, hbeats, haligned⟩, _, _, htouch⟩ => h ⟨hbytes, hbeats, ?_⟩
    rw [hbytes, hbeats] at htouch
    omega

theorem target_eq_none_iff (a : Access) : a.target = none ↔
    ¬((a.bytes = 4 ∧ a.beats = 1 ∧ a.addr % 4 = 0) ∧ a.touchesWindow = true) := by
  rw [← exists_target_iff, Option.eq_none_iff_forall_ne_some, not_exists]

/-- An access that reaches a register is served, whether it reads or writes. -/
theorem step_of_target {s : State} {a : Access} {r : Reg} (ht : s.nextTurn = .host a) (hr : a.target = some r) :
    ∃ t, step s = .next t := by
  cases hk : a.transfer with
  | read => exact ⟨_, step_of_read ht hr hk⟩
  | write v => exact ⟨_, step_of_write ht hr hk⟩

/-- Settles O41: a legal access in the window reaches a register, any other in it is illegal, and the rest are outside. -/
theorem onlyAlignedWordAccessesAreServed : Obligations.OnlyAlignedWordAccessesAreServed := by
  intro a s ht
  rw [← touchesWindow_iff]
  refine ⟨fun hw => ⟨fun hlegal => ?_, fun hillegal => ?_⟩, fun hw => ?_⟩
  · obtain ⟨r, hr⟩ := (exists_target_iff a).2 ⟨hlegal, hw⟩
    exact step_of_target ht hr
  · exact step_of_illegal_access ht ((target_eq_none_iff a).2 fun h => hillegal h.1) hw
  · exact step_of_outside ht ((target_eq_none_iff a).2 fun h => hw h.2) (Bool.eq_false_iff.2 hw)

/-- Bit i of byte k is bit 8k + i of the word (20_memory.md R43). -/
theorem byteLane_getLsbD (w : Word) (k : Nat) {i : Nat} (hi : i < 8) :
    (byteLane w k).getLsbD i = w.getLsbD (8 * k + i) := by
  simp [byteLane, fieldAt, hi]

/-- Settles O42, from the lanes of a word one by one and together. -/
theorem byteLanesAreLittleEndian : Obligations.ByteLanesAreLittleEndian :=
  ⟨base_mod_sixteen, fun w => ⟨fun k _ _ hi => byteLane_getLsbD w k hi, wordOfBytes_lanes w⟩⟩

end Sys2Proof.Machine

/-! PROOFS. The host's accesses leave a command in flight as it is (20_memory.md R48, its fourth rule). -/

namespace Sys2Proof.Machine

/-- `t` has the command of `s` in flight, and the operands, the result and the faults of `s`. -/
structure SameInFlight (s t : State) : Prop where
  busy : t.busy = true
  fault : t.fault = false
  fcode : t.fcode = s.fcode
  cur : t.cur = s.cur
  result : t.result = s.result
  record : t.record = s.record
  entries : ∀ b, t.entryAt b = s.entryAt b

namespace SameInFlight

variable {s m t : State}

theorem refl (hb : s.busy = true) (hf : s.fault = false) : SameInFlight s s :=
  ⟨hb, hf, rfl, rfl, rfl, rfl, fun _ => rfl⟩

theorem trans (hsm : SameInFlight s m) (hmt : SameInFlight m t) : SameInFlight s t where
  busy := hmt.busy
  fault := hmt.fault
  fcode := hmt.fcode.trans hsm.fcode
  cur := hmt.cur.trans hsm.cur
  result := hmt.result.trans hsm.result
  record := hmt.record.trans hsm.record
  entries b := (hmt.entries b).trans (hsm.entries b)

end SameInFlight

/-- A block with a command in flight shows no fault (10_state.md R30). -/
theorem State.Inv.fault_of_busy {s : State} (hs : s.Inv) (hb : s.busy = true) : s.fault = false :=
  Bool.eq_false_iff.2 fun hf => hs.busy_fault ⟨hb, hf⟩

/-- A host access with a command in flight leaves CUR and the ghost record, and takes one turn off the agenda. -/
theorem cur_record_agenda_of_host {s t : State} {a : Access} (hc : Changed s t) (ht : s.nextTurn = .host a)
    (hb : s.busy = true) : t.cur = s.cur ∧ t.record = s.record ∧ t.agenda = s.agenda.tail := by
  cases hc with
  | quiet l d hidle h => subst h; exact ⟨rfl, rfl, rfl⟩
  | overrun _ _ _ _ _ _ _ h => subst h; exact ⟨rfl, rfl, rfl⟩
  | cleared _ _ _ _ _ _ h => subst h; exact ⟨rfl, rfl, rfl⟩
  | accepted _ _ _ _ _ _ hidle _ => simp [hb] at hidle
  | completed r m hblock _ _ _ => simp [ht] at hblock
  | reset hreset _ => simp [ht] at hreset

/-- A host access leaves a command in flight as it is: BUSY, FAULT, FCODE, the operands and RESULT change at other turns
alone. -/
theorem sameInFlight_of_host {s t : State} {a : Access} (hs : s.Inv) (hb : s.busy = true) (hc : Changed s t)
    (ht : s.nextTurn = .host a) : SameInFlight s t := by
  have hblock : s.nextTurn ≠ .block := by simp [ht]
  have hreset : s.nextTurn ≠ .reset := by simp [ht]
  have hsf : s.fault = false := hs.fault_of_busy hb
  have htb : t.busy = true := by
    rw [← Bool.not_eq_false]
    exact fun h => (busy_cleared_by_block_or_reset hc hb h).elim hblock hreset
  have htf : t.fault = false := by
    rw [← Bool.not_eq_true]
    exact fun h => hblock (fault_set_at_completion hc hsf h).1
  obtain ⟨hcur, hrecord, -⟩ := cur_record_agenda_of_host hc ht hb
  obtain ⟨h, -⟩ | ⟨hresult, hentries⟩ := completed_or_data_eq hc hreset
  · exact absurd h hblock
  · exact ⟨htb, htf, (fcode_eq_of_fault_eq hs hc (hsf.trans htf.symm)).symm, hcur, hresult, hrecord, hentries⟩

/-- Any number of host accesses leave a command in flight as it is. -/
theorem sameInFlight_of_reaches {k : Nat} {s t : State} (hs : s.Inv) (hb : s.busy = true)
    (hhost : ∀ j, j < k → ∃ a, s.agenda[j]? = some (.host a)) (hreach : Reaches k s t) : SameInFlight s t := by
  induction k generalizing s with
  | zero =>
    obtain rfl : s = t := hreach
    exact .refl hb (hs.fault_of_busy hb)
  | succ k ih =>
    obtain ⟨m, hstep, hreach⟩ := hreach
    obtain ⟨a, ha⟩ := hhost 0 k.succ_pos
    have ht : s.nextTurn = .host a := by rw [State.nextTurn, List.headD_eq_head?_getD, List.head?_eq_getElem?, ha]; rfl
    have hc : Changed s m := step_changed hstep
    have hsm : SameInFlight s m := sameInFlight_of_host hs hb hc ht
    obtain ⟨-, -, hagenda⟩ := cur_record_agenda_of_host hc ht hb
    refine hsm.trans (ih (everyStepKeepsTheInvariant s m hs hstep) hsm.busy (fun j hj => ?_) hreach)
    rw [hagenda, List.getElem?_tail]
    exact hhost (j + 1) (Nat.succ_lt_succ hj)

/-- Settles O43, field by field of `SameInFlight`. -/
theorem inFlightCommandIsProtected : Obligations.InFlightCommandIsProtected := by
  intro k s m hs hb hhost hreach
  have h : SameInFlight s m := sameInFlight_of_reaches hs hb hhost hreach
  exact ⟨h.busy, h.fault, h.fcode, h.cur, h.result, h.record, fun b => congrFun (h.entries b)⟩

end Sys2Proof.Machine

/-! PROOFS. The fields of a word as masks, and from them the round trip of the encoding, the disjoint rows of the opcode map
and the legal words (30_encoding.md R60 to R66). -/

namespace Sys2Proof

/-- The mask of the field of `width` bits from bit `lo` on. -/
def fieldMask (lo width : Nat) : Word := placeAt lo (BitVec.allOnes width)

/-- A field put back in its place is the word with that field kept (30_encoding.md R61, R62). -/
theorem placeAt_fieldAt (w : Word) (lo width : Nat) : placeAt lo (fieldAt w lo width) = w &&& fieldMask lo width := by
  refine BitVec.eq_of_getLsbD_eq fun k hk => ?_
  by_cases hlo : k < lo
  · simp [placeAt, fieldMask, hlo]
  · have hadd : lo + (k - lo) = k := by omega
    simp [placeAt, fieldMask, fieldAt, hlo, hk, hadd, Bool.and_comm]

@[simp] theorem placeAt_zero {n : Nat} (lo : Nat) : placeAt lo 0#n = 0#32 := by simp [placeAt]

/-- A field is 0 when the word has no bit in common with its mask. -/
theorem fieldAt_eq_zero_iff (w : Word) (lo width : Nat) : fieldAt w lo width = 0 ↔ w &&& fieldMask lo width = 0 := by
  rw [← placeAt_fieldAt]
  refine ⟨fun h => by simp [h, placeAt], fun h => BitVec.eq_of_getLsbD_eq fun k hk => ?_⟩
  have hbit := congrArg (BitVec.getLsbD · (lo + k)) h
  by_cases hlt : lo + k < 32
  · have hklt : k < 32 := by omega
    simpa [placeAt, hlt, hklt] using hbit
  · simp [fieldAt, BitVec.getLsbD_of_ge w (lo + k) (by omega)]

/-- "(w & mask) = match" (30_encoding.md R65). -/
theorem OpRow.admits_iff {r : OpRow} {w : Word} : r.admits w = true ↔ w &&& r.mask = r.pattern := beq_iff_eq

/-- The decoder reads the operands of a row that admits the word (30_encoding.md R65). -/
theorem decode_eq_ok_iff {w : Word} {i : Instr} :
    decode w = .ok i ↔ ∃ r ∈ opRows, r.admits w = true ∧ r.operands w = i := by
  constructor
  · intro h
    rw [decode] at h
    split at h
    · rename_i r hr
      exact ⟨r, List.mem_of_find?_eq_some hr, List.find?_some (p := (OpRow.admits · w)) hr, Except.ok.inj h⟩
    · cases h
  · rintro ⟨r, hr, hadmits, rfl⟩
    exact decode_of_admits hr hadmits

/-- The bytes of a word decode as the word does, and leave the bytes that follow (30_encoding.md R60). -/
theorem decodeBytes_bytesOfWord_append (w : Word) (rest : List Byte) :
    decodeBytes (bytesOfWord w ++ rest) = (decode w).map (·, rest) := by
  simp only [bytesOfWord, List.cons_append, List.nil_append, decodeBytes, wordOfBytes_lanes]
  cases decode w <;> rfl

/-- Settles O6: on words, and so on bytes. -/
theorem decodeReadsBackEveryEncoding : Obligations.DecodeReadsBackEveryEncoding := by
  intro i rest
  refine ⟨decode_encode i, ?_⟩
  rw [encodeBytes, decodeBytes_bytesOfWord_append, decode_encode]
  rfl

/-- What a row takes from a word encodes to the row's pattern and the bits of the word that its mask leaves free: each operand
is a field of the word put back in its place (30_encoding.md R64, R65). -/
theorem encode_operands {r : OpRow} (hr : r ∈ opRows) (w : Word) :
    encode (r.operands w) = r.pattern ||| (w &&& ~~~r.mask) := by
  simp only [opRows, List.mem_cons, List.not_mem_nil, or_false] at hr
  rcases hr with rfl | rfl | rfl | rfl | rfl | rfl | rfl | rfl | rfl | rfl | rfl | rfl | rfl | rfl <;>
    simp [encode, fieldsWord, countWord, f1Of, f2Of, f3Of, nfOf, placeAt_fieldAt, BitVec.or_assoc,
      ← BitVec.and_or_distrib_left] <;> rfl

/-- Settles O7: the mask fixes the bits of the pattern, and the encoder gives back all others. -/
theorem everyDecodedWordIsItsEncoding : Obligations.EveryDecodedWordIsItsEncoding := by
  intro w i h
  obtain ⟨r, hr, hadmits, rfl⟩ := decode_eq_ok_iff.1 h
  calc encode (r.operands w)
    _ = (w &&& r.mask) ||| (w &&& ~~~r.mask) := by rw [encode_operands hr, OpRow.admits_iff.1 hadmits]
    _ = w &&& (r.mask ||| ~~~r.mask) := BitVec.and_or_distrib_left.symm
    _ = w := by rw [BitVec.or_not_self, BitVec.and_allOnes]

/-- Settles O8: the row that admits a word has its OP, and the rows' OPs differ. -/
theorem noWordMatchesTwoRows : Obligations.NoWordMatchesTwoRows := by
  have hops : opRows.Pairwise fun r q => opOf r.pattern ≠ opOf q.pattern := by decide
  refine ⟨rfl, hops.imp_of_mem fun hr hq hne w ⟨hwr, hwq⟩ => hne ?_⟩
  rw [← opOf_of_admits hr (OpRow.admits_iff.2 hwr), opOf_of_admits hq (OpRow.admits_iff.2 hwq)]

/-- The fields that the format of an OP reserves, each from its lowest bit and by its width (30_encoding.md R63). RSV is
reserved in every format (R61). -/
def reservedFields (op : Nat) : List (Nat × Nat) :=
  (4, 4) ::
    match op with
    | 0x0 => [(8, 24)]
    | 0x1 | 0x2 | 0x3 | 0x4 => [(24, 8)]
    | 0x5 => [(16, 16)]
    | 0x6 | 0xD => [(8, 8), (25, 7)]
    | 0x7 => [(16, 8)]
    | 0x9 | 0xA | 0xB => [(8, 16)]
    | 0xC => [(25, 7)]
    | _ => []

/-- The mask of several fields. -/
def fieldsMask (fields : List (Nat × Nat)) : Word := fields.foldr (fun f m => fieldMask f.1 f.2 ||| m) 0

/-- Fields are all 0 when the word has no bit in common with their mask. -/
theorem forall_fieldAt_eq_zero_iff (w : Word) (fields : List (Nat × Nat)) :
    (∀ f ∈ fields, fieldAt w f.1 f.2 = 0) ↔ w &&& fieldsMask fields = 0 := by
  induction fields with
  | nil => simp [fieldsMask]
  | cons f fields ih =>
    have hcons : fieldsMask (f :: fields) = fieldMask f.1 f.2 ||| fieldsMask fields := rfl
    rw [List.forall_mem_cons, ih, fieldAt_eq_zero_iff, hcons, BitVec.and_or_distrib_left]
    exact BitVec.or_eq_zero_iff.symm

/-- A row's mask is OP and the fields its format reserves, and its pattern is its OP (30_encoding.md R63, R65). -/
theorem opRows_mask_pattern : ∀ r ∈ opRows,
    r.mask = fieldMask 0 4 ||| fieldsMask (reservedFields (opOf r.pattern).toNat) ∧
    r.pattern &&& fieldsMask (reservedFields (opOf r.pattern).toNat) = 0 ∧ placeAt 0 (opOf r.pattern) = r.pattern := by
  decide

/-- A row admits the words of its OP whose reserved fields are 0 (30_encoding.md R63, R65). -/
theorem admits_iff_reservedFields {r : OpRow} (hr : r ∈ opRows) {w : Word} (hop : opOf w = opOf r.pattern) :
    r.admits w = true ↔ ∀ f ∈ reservedFields (opOf w).toNat, fieldAt w f.1 f.2 = 0 := by
  obtain ⟨hmask, hpattern, hplace⟩ := opRows_mask_pattern r hr
  rw [OpRow.admits_iff, forall_fieldAt_eq_zero_iff, hop]
  generalize fieldsMask (reservedFields (opOf r.pattern).toNat) = reserved at hmask hpattern
  constructor
  · intro h
    have hsub : r.mask &&& reserved = reserved := by rw [hmask]; ext k; simp +contextual
    rw [← hsub, ← BitVec.and_assoc, h, hpattern]
  · intro h
    rw [hmask, BitVec.and_or_distrib_left, ← placeAt_fieldAt, ← opOf, hop, hplace, h]
    exact BitVec.or_zero

/-- The OPs of the opcode map are 0x0 to 0xD (30_encoding.md R65, R66). -/
theorem exists_row_of_op_iff : ∀ op : BitVec 4, (∃ r ∈ opRows, op = opOf r.pattern) ↔ op.toNat < 14 := by decide

/-- The words that decode (30_encoding.md R63, R66). -/
theorem exists_decode_iff (w : Word) : (∃ i, decode w = .ok i) ↔
    (opOf w).toNat < 14 ∧ ∀ f ∈ reservedFields (opOf w).toNat, fieldAt w f.1 f.2 = 0 := by
  rw [← exists_row_of_op_iff]
  constructor
  · rintro ⟨i, hi⟩
    obtain ⟨r, hr, hadmits, -⟩ := decode_eq_ok_iff.1 hi
    have hop := opOf_of_admits hr hadmits
    exact ⟨⟨r, hr, hop⟩, (admits_iff_reservedFields hr hop).1 hadmits⟩
  · rintro ⟨⟨r, hr, hop⟩, hfields⟩
    exact ⟨_, decode_of_admits hr ((admits_iff_reservedFields hr hop).2 hfields)⟩

/-- Settles O9: the reserved fields of each OP, written out. -/
theorem legalWordsAreThoseOfTheFormats : Obligations.LegalWordsAreThoseOfTheFormats := by
  intro w
  have hop : (opOf w).toNat < 16 := (opOf w).isLt
  rw [exists_decode_iff, ← fieldAt, ← fieldAt, ← opOf]
  generalize (opOf w).toNat = op at hop
  interval_cases op <;> simp [reservedFields, fieldAt]

/-- Settles O10: the decoder evaluated on each word. -/
theorem sampleWordsDecodeAsTheSpecWritesThem : Obligations.SampleWordsDecodeAsTheSpecWritesThem :=
  ⟨rfl, rfl, rfl, rfl, rfl, rfl, rfl⟩

end Sys2Proof

/-! PROOFS. The words the encoder builds, as sums of their fields (30_encoding.md R61, R62, R69). -/

namespace Sys2Proof

/-- A field placed above the bits in use adds its value at its place. -/
theorem toNat_or_placeAt {w : Word} {lo n : Nat} (v : BitVec n) (hw : w.toNat < 2 ^ lo) (hn : lo + n ≤ 32) :
    (w ||| placeAt lo v).toNat = w.toNat + v.toNat * 2 ^ lo := by
  have hfit : v.toNat * 2 ^ lo < 2 ^ 32 := by
    calc v.toNat * 2 ^ lo
      _ < 2 ^ n * 2 ^ lo := Nat.mul_lt_mul_of_pos_right v.isLt (Nat.two_pow_pos lo)
      _ = 2 ^ (lo + n) := by rw [Nat.pow_add, Nat.mul_comm]
      _ ≤ 2 ^ 32 := Nat.pow_le_pow_right (by decide) hn
  have hplace : (placeAt lo v).toNat = v.toNat <<< lo := by
    rw [placeAt, BitVec.toNat_shiftLeft, BitVec.toNat_setWidth_of_le (by omega), Nat.shiftLeft_eq, Nat.mod_eq_of_lt hfit]
  rw [BitVec.toNat_or, hplace, Nat.or_comm, ← Nat.shiftLeft_add_eq_or_of_lt hw, Nat.shiftLeft_eq, Nat.add_comm]

/-- The low half of every format: OP and F1, RSV being 0. -/
theorem toNat_op_or_f1 (op : BitVec 4) (f1 : Byte) :
    (placeAt 0 op ||| placeAt 8 f1).toNat = op.toNat + f1.toNat * 2 ^ 8 := by
  have hop : (placeAt 0 op).toNat = op.toNat := by
    rw [placeAt, BitVec.shiftLeft_zero]
    exact BitVec.toNat_setWidth_of_le (by decide)
  rw [toNat_or_placeAt f1 (by omega) (by decide), hop]

theorem toNat_fieldsWord (op : BitVec 4) (f1 f2 f3 : Byte) :
    (fieldsWord op f1 f2 f3).toNat = op.toNat + f1.toNat * 2 ^ 8 + f2.toNat * 2 ^ 16 + f3.toNat * 2 ^ 24 := by
  have hlow := toNat_op_or_f1 op f1
  have hf2 : (placeAt 0 op ||| placeAt 8 f1 ||| placeAt 16 f2).toNat =
      op.toNat + f1.toNat * 2 ^ 8 + f2.toNat * 2 ^ 16 := by
    rw [toNat_or_placeAt f2 (by omega) (by decide), hlow]
  rw [fieldsWord, toNat_or_placeAt f3 (by omega) (by decide), hf2]

theorem toNat_countWord (op : BitVec 4) (f1 : Byte) (nf : Count) :
    (countWord op f1 nf).toNat = op.toNat + f1.toNat * 2 ^ 8 + nf.toNat * 2 ^ 16 := by
  have hlow := toNat_op_or_f1 op f1
  rw [countWord, toNat_or_placeAt nf (by omega) (by decide), hlow]

end Sys2Proof

/-! PROOFS. The faults of a count or index out of range (30_encoding.md R67), and those of a command in range. -/

namespace Sys2Proof.Machine

theorem evalResult_of_gt {n : Count} (hn : 256 < n.toNat) (x : Byte) (s : State) : evalResult x n s = .fault .badLen :=
  if_pos hn

theorem interpResult_of_gt {n : Count} (hn : 256 < n.toNat) (s : State) : interpResult n s = .fault .badLen :=
  if_pos hn

theorem alogResult_of_gt {k : Count} (hk : 509 < k.toNat) : alogResult k = .fault .romRange := if_pos hk

/-- EVAL reads no coefficient when N > 256 (43_eval.md R120). -/
theorem evalUninit_of_gt {n : Count} (hn : 256 < n.toNat) (s : State) : evalUninit n s = false := by
  simp [evalUninit, hn]

/-- INTERP reads no point when N > 256 (44_interp.md R130). -/
theorem interpUninit_of_gt {n : Count} (hn : 256 < n.toNat) (s : State) : interpUninit n s = false := by
  simp [interpUninit, hn]

/-- A command whose count and index are in range raises no fault but those of its operands' values (30_encoding.md R67,
60_exceptions.md R143). -/
theorem fault_of_executed_wf {s : State} {i : Instr} {c : FaultCode} (hwf : i.wf = true) (h : executed s i = .fault c) :
    c = .xZero ∨ c = .divZero := by
  cases i with
  | div a b =>
    by_cases hb : b = 0
    · rw [executed, hb, gfDiv_zero] at h
      cases h
      exact .inr rfl
    · rw [executed, gfDiv_of_ne a hb] at h
      cases h
  | alog k =>
    have hk : ¬510 ≤ k.toNat := not_le.2 (of_decide_eq_true hwf)
    rw [executed, alogResult, if_neg hk] at h
    cases h
  | eval x n =>
    have hn : ¬256 < n.toNat := not_lt.2 (of_decide_eq_true hwf)
    rw [executed, evalResult, if_neg hn] at h
    cases h
  | interp n =>
    have hn : ¬256 < n.toNat := not_lt.2 (of_decide_eq_true hwf)
    rw [executed, interpResult, if_neg hn] at h
    cases hl : lagrangeZero (s.operand .px) (s.operand .py .weight) n.toNat with
    | ok v => rw [hl] at h; cases h
    | error e =>
      rw [hl] at h
      cases h
      exact lagrangeZero_error hl
  | _ => cases h

/-- Settles O26: each fault by its range check, and the other direction from what a command in range returns. -/
theorem rangeChecksRaiseTheirFaults : Obligations.RangeChecksRaiseTheirFaults := by
  intro s
  refine ⟨fun x n hn => ?_, fun n hn => ?_, fun k hk => ?_, fun i t hs hwf hexec => ?_⟩
  · rw [exec, execEval, evalResult_of_gt hn, evalUninit_of_gt hn, noteUninit_false]
    rfl
  · rw [exec, execInterp, interpResult_of_gt hn, interpUninit_of_gt hn, noteUninit_false]
    rfl
  · rw [exec, execAlog, alogResult_of_gt hk]
    rfl
  · obtain ⟨m, hm, heff⟩ := exec_returns i s
    obtain rfl : complete (executed s i) m = t := Host.Outcome.next.inj (hm.symm.trans hexec)
    obtain ⟨-, hfcode⟩ | ⟨c, hc, -, hfcode⟩ := complete_fault_cases (executed s i) m
    · obtain ⟨_, _, _, _, _, rfl⟩ := heff.frame
      rw [hfcode]
      simp [hs]
    · rw [hfcode]
      obtain rfl | rfl := fault_of_executed_wf hwf hc <;> decide

end Sys2Proof.Machine

/-! PROOFS. The assembler: its literals, the words of its lines, and its pseudo-instructions (30_encoding.md R69, R70). -/

namespace Sys2Proof.Machine

@[simp] theorem literal_toNat {width : Nat} (v : BitVec width) : literal width v.toNat = some v := by
  simp [literal, v.isLt]

theorem literal_eq_none {width v : Nat} (h : 2 ^ width ≤ v) : literal width v = none := if_neg (not_lt.2 h)

@[simp] theorem literals2_toNat (mk : Byte → Byte → Instr) (x y : Byte) :
    literals2 mk x.toNat y.toNat = some (mk x y) := by
  simp [literals2]

theorem literals2_eq_none (mk : Byte → Byte → Instr) {a b : Nat} (h : 256 ≤ a ∨ 256 ≤ b) :
    literals2 mk a b = none := by
  obtain ha | hb := h
  · rw [literals2, literal_eq_none (width := 8) ha]
  · rw [literals2, literal_eq_none (width := 8) hb]
    cases literal 8 a <;> rfl

theorem assemble_wpt_eq_none {idx x y : Nat} (h : 256 ≤ idx ∨ 256 ≤ x ∨ 256 ≤ y) :
    assemble (.wpt idx x y) = none := by
  obtain hidx | hx | hy := h
  · simp [assemble, literal_eq_none (width := 8) hidx]
  · simp [assemble, literal_eq_none (width := 8) hx]
  · simp [assemble, literal_eq_none (width := 8) hy]

theorem assemble_eval_eq_none {x n : Nat} (h : 256 ≤ x ∨ 512 ≤ n) : assemble (.eval x n) = none := by
  obtain hx | hn := h
  · simp [assemble, literal_eq_none (width := 8) hx]
  · simp [assemble, literal_eq_none (width := 9) hn]

/-- An operand that fits its field is a value of the field. -/
theorem exists_toNat_eq {width v : Nat} (h : v < 2 ^ width) : ∃ x : BitVec width, x.toNat = v :=
  ⟨BitVec.ofNatLT v h, BitVec.toNat_ofNatLT v h⟩

/-- Every element times itself is its carry-less square (41_field_arith.md R100). -/
theorem gfMul_self : ∀ a : Byte, gfMul a a = clmulMod a a := by decide +kernel

/-- 0x01 is neutral (41_field_arith.md R99). -/
theorem one_gfMul : ∀ a : Byte, gfMul 1 a = a := by decide +kernel

/-- What the divider forms for a nonzero byte is its inverse (41_field_arith.md R93). -/
theorem gfMul_gfInv : ∀ b : Byte, b ≠ 0 → gfMul b (gfInv b) = 1 := by decide +kernel

/-- Settles O54: the result of each expansion is a fact about one byte. -/
theorem pseudoInstructionsExpandToOneCommand : Obligations.PseudoInstructionsExpandToOneCommand := by
  intro b s
  refine ⟨⟨literals2_toNat .div 0x01 b, fun hb => ⟨gfInv b, ?_, gfMul_gfInv b hb⟩, ?_⟩,
    ⟨literals2_toNat .add b 0x00, ?_⟩, literals2_toNat .mul b b, ?_⟩
  · rw [exec, execDiv, gfDiv_of_ne 0x01 hb, one_gfMul]
    rfl
  · rintro rfl
    rfl
  · rw [exec, execAdd, gfAdd_zero]
    rfl
  · rw [exec, execMul, gfMul_self]
    rfl

/-- Settles O55: operands that fit are values of their fields, and the encoder adds each at its place. -/
theorem assemblerWordsAndRefusals : Obligations.AssemblerWordsAndRefusals := by
  intro a b c
  refine ⟨fun ha hb => ?_, rfl, fun hab => ?_, fun ha => ?_, fun hc => ?_, fun hc => ?_⟩
  · obtain ⟨x, rfl⟩ := exists_toNat_eq (width := 8) ha
    obtain ⟨y, rfl⟩ := exists_toNat_eq (width := 8) hb
    refine ⟨?_, ?_, ?_, ?_, ?_, ?_, ?_, ?_, ?_, fun hc => ?point, fun hc => ?count⟩
    case point =>
      obtain ⟨z, rfl⟩ := exists_toNat_eq (width := 8) hc
      simp [assemble, encode, toNat_fieldsWord]
    case count =>
      obtain ⟨n, rfl⟩ := exists_toNat_eq (width := 9) hc
      simp [assemble, encode, toNat_countWord]
    all_goals simp [assemble, encode, toNat_fieldsWord]
  · have hwpt : assemble (.wpt a b c) = none := assemble_wpt_eq_none (by omega)
    refine ⟨?_, ?_, ?_, ?_, ?_, hwpt⟩ <;> exact literals2_eq_none _ hab
  · have hliteral : literal 8 a = none := literal_eq_none ha
    simp [assemble, hliteral, literals2_eq_none, ha]
  · exact assemble_wpt_eq_none (.inr (.inr hc))
  · have hliteral : literal 9 c = none := literal_eq_none hc
    exact ⟨by simp [assemble, hliteral], assemble_eval_eq_none (.inr hc), by simp [assemble, hliteral]⟩

end Sys2Proof.Machine

/-! PROOFS. The ROM pair as the powers of the generator 0x03 and their logarithms (40_rom.md R80 to R85). -/

namespace Sys2Proof.Machine

/-- Each ALOG cell is the one before it times the generator, as the ROM was generated (40_rom.md R80). -/
theorem alogRom_succ : ∀ i, i < 509 → alogRom (i + 1) = clmulMod (alogRom i) Config.gen := by decide +kernel

/-- The logarithm of a nonzero element leads back to it (40_rom.md R83). -/
theorem alogRom_logRom : ∀ e : Byte, e ≠ 0 → alogRom (logRom e).toNat = e := by decide +kernel

/-- Below 255 an index is the logarithm of its cell (10_state.md R23). -/
theorem logRom_alogRom : ∀ i, i < 255 → (logRom (alogRom i)).toNat = i := by decide +kernel

theorem alogRom_eq_genPower {i : Nat} (hi : i < 510) : alogRom i = genPower i := by
  induction i with
  | zero => rfl
  | succ i ih => rw [alogRom_succ i (by omega), ih (by omega), genPower]

/-- The generator's order divides 255 (40_rom.md R83). -/
theorem genPower_periodic : Function.Periodic genPower 255 := by
  intro i
  induction i with
  | zero => exact (alogRom_eq_genPower (i := 255) (by decide)).symm
  | succ i ih => rw [Nat.add_right_comm, genPower, ih, genPower]

theorem alogRom_mod {i : Nat} (hi : i < 510) : alogRom (i % 255) = alogRom i := by
  rw [alogRom_eq_genPower (i := i % 255) (by omega), genPower_periodic.map_mod_nat, alogRom_eq_genPower hi]

/-- An index below 255 whose cell holds `e` is the logarithm of `e`, so no two hold the same element (40_rom.md R83). -/
theorem eq_logRom_of_alogRom_eq {e : Byte} {i : Nat} (hi : i < 255) (h : alogRom i = e) : i = (logRom e).toNat := by
  rw [← h, logRom_alogRom i hi]

/-- A cell below 255 that held 0 would stand at the sentinel LOG[0] = 255; the cells above repeat those below. -/
theorem alogRom_ne_zero {i : Nat} (hi : i < 510) : alogRom i ≠ 0 := by
  rw [← alogRom_mod hi]
  intro hzero
  have hlog : i % 255 = (logRom 0).toNat := eq_logRom_of_alogRom_eq (by omega) hzero
  have hsentinel : (logRom 0).toNat = 255 := by rw [logRom_zero]; rfl
  omega

/-- An index the ROM has is answered with its cell (40_rom.md R85). -/
theorem alogResult_of_lt {k : Count} (hk : k.toNat < 510) : alogResult k = .value (alogRom k.toNat) :=
  if_neg (not_le.2 hk)

/-- Settles O15: LOG answers the cell of its operand, which is the sentinel or the one index whose cell holds the operand. -/
theorem logReturnsTheDiscreteLogarithm : Obligations.LogReturnsTheDiscreteLogarithm := by
  intro a s
  refine ⟨logRom a, rfl, fun ha => ?_, fun ha => ?_⟩
  · rw [ha, logRom_zero]
  · have hlt := logRom_lt a ha
    have hback := alogRom_logRom a ha
    refine ⟨hlt, ?_, hback, fun l => eq_logRom_of_alogRom_eq⟩
    rw [← alogRom_eq_genPower (by omega), hback]

/-- Settles O16: the range check, and the cells it lets through as powers of the generator. -/
theorem alogReturnsThePowerOfTheGenerator : Obligations.AlogReturnsThePowerOfTheGenerator := by
  intro i s
  constructor
  · intro hi
    have hlt : i.toNat < 510 := by omega
    rw [exec, execAlog, alogResult_of_lt hlt, alogRom_eq_genPower hlt]
    rfl
  · intro hi
    rw [exec, execAlog, alogResult_of_gt hi]
    rfl

/-- Settles O17: LOG inverts ALOG on 0..254, and the powers of the generator repeat after 255. -/
theorem romContentsInvariants : Obligations.RomContentsInvariants := by
  refine ⟨alogRom_logRom, fun i hlo hhi => ?_, fun e he => ?_,
    ⟨rfl, fun i hi => ⟨alogRom_eq_genPower hi, alogRom_ne_zero hi⟩⟩, rfl, fun i => ?_⟩
  · have hmod : alogRom (i % 255) = alogRom i := alogRom_mod (by omega)
    have hsub : alogRom (i % 255) = alogRom (i - 255) := by
      rw [Nat.mod_eq_sub_mod hlo, alogRom_mod (by omega)]
    exact ⟨hmod.symm.trans hsub, hsub.symm⟩
  · exact ⟨_, logRom_lt e he, alogRom_logRom e he, fun j => eq_logRom_of_alogRom_eq⟩
  · constructor
    · rintro ⟨v, hv⟩
      by_contra hi
      rw [alogResult_of_gt (by omega)] at hv
      cases hv
    · exact fun hi => ⟨_, alogResult_of_lt hi⟩

end Sys2Proof.Machine

/-! PROOFS. The carry-less product is linear in each operand, and so multiplies powers of the generator by adding their
exponents (40_rom.md R80). -/

namespace Sys2Proof.Machine

/-- A fold whose step splits over xor splits over xor. -/
theorem foldl_xor {n : Nat} {f g h : BitVec n → Nat → BitVec n}
    (hstep : ∀ r s k, f (r ^^^ s) k = g r k ^^^ h s k) (ks : List Nat) (r s : BitVec n) :
    ks.foldl f (r ^^^ s) = ks.foldl g r ^^^ ks.foldl h s := by
  induction ks generalizing r s with
  | nil => rfl
  | cons k ks ih => rw [List.foldl_cons, hstep, ih, List.foldl_cons, List.foldl_cons]

/-- What goes in for a set bit of `x ^^^ y` goes in for that bit of `x` and of `y`: twice is not at all. -/
theorem toggle_xor {n w : Nat} (x y : BitVec n) (k : Nat) (r s m : BitVec w) :
    (if (x ^^^ y).getLsbD k then r ^^^ s ^^^ m else r ^^^ s) =
      (if x.getLsbD k then r ^^^ m else r) ^^^ (if y.getLsbD k then s ^^^ m else s) := by
  have hcancel : (r ^^^ m) ^^^ (s ^^^ m) = r ^^^ s := by
    calc (r ^^^ m) ^^^ (s ^^^ m)
      _ = (r ^^^ s) ^^^ (m ^^^ m) := by ac_rfl
      _ = r ^^^ s := by rw [BitVec.xor_self, BitVec.xor_zero]
  rw [BitVec.getLsbD_xor]
  cases x.getLsbD k <;> cases y.getLsbD k
  case false.false => rfl
  case false.true => exact BitVec.xor_assoc r s m
  case true.false =>
    change r ^^^ s ^^^ m = r ^^^ m ^^^ s
    ac_rfl
  case true.true => exact hcancel.symm

theorem clmul_xor_left (a a' b : Byte) : clmul (a ^^^ a') b = clmul a b ^^^ clmul a' b := by
  refine foldl_xor (fun r s k => ?_) (List.range 8) 0 0
  cases b.getLsbD k with
  | false => rfl
  | true =>
    simp only [if_true, BitVec.truncate_eq_setWidth, BitVec.setWidth_xor, BitVec.shiftLeft_xor_distrib]
    ac_rfl

theorem clmul_xor_right (a b b' : Byte) : clmul a (b ^^^ b') = clmul a b ^^^ clmul a b' :=
  foldl_xor (fun r s k => toggle_xor b b' k r s _) (List.range 8) 0 0

theorem polyReduce_xor (r s : BitVec 16) : polyReduce (r ^^^ s) = polyReduce r ^^^ polyReduce s :=
  foldl_xor (fun r s k => toggle_xor r s k r s _) _ r s

/-- The low `m + 1` bits of a byte are its low `m` bits and bit `m`. -/
theorem setWidth_succ_eq_xor_twoPow {a : Byte} {m : Nat} (hbit : a.getLsbD m = true) :
    (a.setWidth (m + 1)).setWidth 8 = (a.setWidth m).setWidth 8 ^^^ BitVec.twoPow 8 m := by
  ext k hk
  by_cases hkm : k = m
  · simp [hkm, hbit]
  · have hlt : k < m + 1 ↔ k < m := by omega
    simp [hlt, hkm]

/-- `f` is linear over GF(2): it splits over xor. -/
def XorLinear (f : Byte → Byte) : Prop := ∀ a b, f (a ^^^ b) = f a ^^^ f b

theorem clmulMod_linear_left (b : Byte) : XorLinear (clmulMod · b) := by
  intro a a'
  simp only [clmulMod, clmul_xor_left, polyReduce_xor]
  exact BitVec.setWidth_xor

theorem clmulMod_linear_right (a : Byte) : XorLinear (clmulMod a) := by
  intro b b'
  rw [clmulMod, clmul_xor_right, polyReduce_xor]
  exact BitVec.setWidth_xor

namespace XorLinear

variable {f g : Byte → Byte}

protected theorem id : XorLinear fun a => a := fun _ _ => rfl

theorem comp (hg : XorLinear g) (hf : XorLinear f) : XorLinear fun a => g (f a) := by
  intro a b
  simp only [hf a b, hg (f a)]

theorem map_zero (hf : XorLinear f) : f 0 = 0 := by
  calc f 0
    _ = f (0 ^^^ 0) := rfl
    _ = f 0 ^^^ f 0 := hf 0 0
    _ = 0 := BitVec.xor_self

/-- Linear maps that agree on the eight single bits agree. -/
theorem eq_of_bits (hf : XorLinear f) (hg : XorLinear g)
    (hbits : ∀ k, k < 8 → f (BitVec.twoPow 8 k) = g (BitVec.twoPow 8 k)) (a : Byte) : f a = g a := by
  have hlow : ∀ m, m ≤ 8 → f ((a.setWidth m).setWidth 8) = g ((a.setWidth m).setWidth 8) := by
    intro m hm
    induction m with
    | zero =>
      rw [BitVec.of_length_zero (x := a.setWidth 0), BitVec.setWidth_zero]
      exact hf.map_zero.trans hg.map_zero.symm
    | succ m ih =>
      have hprev := ih (by omega)
      cases hbit : a.getLsbD m with
      | false => rwa [BitVec.setWidth_setWidth_succ_eq_setWidth_setWidth_of_getLsbD_false hbit]
      | true => rw [setWidth_succ_eq_xor_twoPow hbit, hf, hg, hprev, hbits m hm]
  simpa using hlow 8 le_rfl

end XorLinear

/-- 0x01 is neutral (41_field_arith.md R99). -/
theorem clmulMod_one (a : Byte) : clmulMod a 1 = a :=
  (clmulMod_linear_left 1).eq_of_bits .id (by decide +kernel) a

theorem clmulMod_assoc_gen_bits : ∀ i, i < 8 → ∀ j, j < 8 →
    clmulMod (clmulMod (BitVec.twoPow 8 i) (BitVec.twoPow 8 j)) Config.gen =
      clmulMod (BitVec.twoPow 8 i) (clmulMod (BitVec.twoPow 8 j) Config.gen) := by decide +kernel

/-- Multiplying by the generator associates: both sides are linear in each operand and agree on the single bits. -/
theorem clmulMod_assoc_gen (a b : Byte) : clmulMod (clmulMod a b) Config.gen = clmulMod a (clmulMod b Config.gen) := by
  refine XorLinear.eq_of_bits ((clmulMod_linear_left Config.gen).comp (clmulMod_linear_left b))
    (clmulMod_linear_left (clmulMod b Config.gen)) (fun i hi => ?_) a
  exact XorLinear.eq_of_bits ((clmulMod_linear_left Config.gen).comp (clmulMod_linear_right (BitVec.twoPow 8 i)))
    ((clmulMod_linear_right (BitVec.twoPow 8 i)).comp (clmulMod_linear_left Config.gen))
    (clmulMod_assoc_gen_bits i hi) b

/-- The product of two powers of the generator adds their exponents. -/
theorem clmulMod_genPower (i j : Nat) : clmulMod (genPower i) (genPower j) = genPower (i + j) := by
  induction j with
  | zero => exact clmulMod_one _
  | succ j ih => rw [← Nat.add_assoc, genPower, genPower, ← clmulMod_assoc_gen, ih]

end Sys2Proof.Machine

/-! PROOFS. The field functions and the commands ADD, SUB, MUL and DIV, with their laws (41_field_arith.md R90 to R100). -/

namespace Sys2Proof.Machine

/-- A nonzero element is the power of the generator that its logarithm says (40_rom.md R83). -/
theorem genPower_logRom {a : Byte} (ha : a ≠ 0) : genPower (logRom a).toNat = a := by
  have hlog := logRom_lt a ha
  rw [← alogRom_eq_genPower (by omega), alogRom_logRom a ha]

/-- gf_mul by the ROMs is the carry-less product modulo 0x11B (41_field_arith.md R100): the sum of the logarithms is the
exponent of the product. -/
theorem gfMul_eq_clmulMod (a b : Byte) : gfMul a b = clmulMod a b := by
  by_cases ha : a = 0
  · rw [ha, zero_gfMul, (clmulMod_linear_left b).map_zero]
  by_cases hb : b = 0
  · rw [hb, gfMul_zero, (clmulMod_linear_right a).map_zero]
  have hloga := logRom_lt a ha
  have hlogb := logRom_lt b hb
  calc gfMul a b
    _ = genPower ((logRom a).toNat + (logRom b).toNat) := by
      rw [gfMul_of_ne ha hb, alogRom_eq_genPower (by omega)]
    _ = clmulMod a b := by rw [← clmulMod_genPower, genPower_logRom ha, genPower_logRom hb]

/-- MUL completes with what gf_mul gives (41_field_arith.md R96). -/
theorem exec_mul (a b : Byte) (s : State) :
    exec (.mul a b) s = .next { s with result := gfMul a b, busy := false } := rfl

/-- DIV by a nonzero divisor completes with the dividend times its inverse (41_field_arith.md R93, R97). -/
theorem exec_div_of_ne (a : Byte) {b : Byte} (hb : b ≠ 0) (s : State) :
    exec (.div a b) s = .next { s with result := gfMul a (gfInv b), busy := false } := by
  rw [exec, execDiv, gfDiv_of_ne a hb]
  rfl

/-- Settles O12: the ROMs' product is the carry-less one. -/
theorem mulReturnsTheCarrylessProduct : Obligations.MulReturnsTheCarrylessProduct := by
  intro a b
  refine ⟨gfMul_eq_clmulMod a b, fun s => ?_⟩
  rw [exec_mul, gfMul_eq_clmulMod]

theorem gfMul_comm (a b : Byte) : gfMul a b = gfMul b a := by
  simp only [gfMul, or_comm, Nat.add_comm]

theorem gfMul_one (a : Byte) : gfMul a 1 = a := by rw [gfMul_comm, one_gfMul]

theorem gfMul_gfAdd (a b c : Byte) : gfMul a (gfAdd b c) = gfAdd (gfMul a b) (gfMul a c) := by
  simp only [gfMul_eq_clmulMod, gfAdd, clmulMod_linear_right a b c]

/-- Products of powers of the generator associate as sums of exponents do. -/
theorem gfMul_assoc (a b c : Byte) : gfMul (gfMul a b) c = gfMul a (gfMul b c) := by
  by_cases ha : a = 0
  · simp only [ha, zero_gfMul]
  by_cases hb : b = 0
  · simp only [hb, zero_gfMul, gfMul_zero]
  by_cases hc : c = 0
  · simp only [hc, gfMul_zero]
  rw [← genPower_logRom ha, ← genPower_logRom hb, ← genPower_logRom hc]
  simp only [gfMul_eq_clmulMod, clmulMod_genPower, Nat.add_assoc]

/-- Multiplying by a nonzero element and then by its inverse changes nothing (41_field_arith.md R99). -/
theorem gfMul_gfMul_gfInv (a : Byte) {b : Byte} (hb : b ≠ 0) : gfMul (gfMul a b) (gfInv b) = a := by
  rw [gfMul_assoc, gfMul_gfInv b hb, gfMul_one]

theorem gfMul_gfInv_gfMul (a : Byte) {b : Byte} (hb : b ≠ 0) : gfMul (gfMul a (gfInv b)) b = a := by
  rw [gfMul_assoc, gfMul_comm (gfInv b), gfMul_gfInv b hb, gfMul_one]

/-- There are no zero divisors (41_field_arith.md R99). -/
theorem gfMul_eq_zero {a b : Byte} : gfMul a b = 0 ↔ a = 0 ∨ b = 0 := by
  constructor
  · intro h
    by_contra! hne
    obtain ⟨ha, hb⟩ := hne
    rw [← gfMul_gfMul_gfInv a hb, h, zero_gfMul] at ha
    exact ha rfl
  · rintro (rfl | rfl)
    · exact zero_gfMul b
    · exact gfMul_zero a

/-- Settles O13: the dividend times the divisor's inverse is a quotient, and any quotient is it. -/
theorem divReturnsTheQuotient : Obligations.DivReturnsTheQuotient := by
  intro a b s hb
  simp only [← gfMul_eq_clmulMod]
  refine ⟨gfMul a (gfInv b), exec_div_of_ne a hb s, gfMul_gfInv_gfMul a hb, ?_⟩
  rintro r rfl
  exact (gfMul_gfMul_gfInv r hb).symm

/-- Settles O19: the laws of gf_mul, and those of gf_div through the divisor's inverse. -/
theorem multiplicationAndDivisionLaws : Obligations.MultiplicationAndDivisionLaws := by
  intro a b c
  refine ⟨gfMul_comm a b, gfMul_assoc a b c, gfMul_gfAdd a b c, gfMul_one a, gfMul_zero a, fun hb => ?_, gfMul_eq_zero⟩
  simp only [gfDiv_of_ne _ hb]
  refine ⟨⟨_, rfl, ?_⟩, ?_, ⟨_, rfl, gfMul_gfInv_gfMul a hb⟩, ?_⟩
  · rw [one_gfMul, gfMul_gfInv b hb]
  · rw [gfMul_gfMul_gfInv a hb]
  · rw [zero_gfMul]

/-- Settles O11: what NOP, ADD and SUB return, with the completion step. -/
theorem nopAddAndSubResults : Obligations.NopAddAndSubResults :=
  fun _ _ _ => ⟨rfl, rfl, rfl, rfl, rfl⟩

/-- Settles O14: gf_div raises DIV_ZERO whatever the dividend is, and fault entry leaves RESULT. -/
theorem divByZeroRaisesDivZero : Obligations.DivByZeroRaisesDivZero := by
  intro a s
  rw [exec, execDiv, gfDiv_zero]
  rfl

theorem gfAdd_comm (a b : Byte) : gfAdd a b = gfAdd b a := BitVec.xor_comm a b

theorem gfAdd_assoc (a b c : Byte) : gfAdd (gfAdd a b) c = gfAdd a (gfAdd b c) := BitVec.xor_assoc a b c

@[simp] theorem gfAdd_self (a : Byte) : gfAdd a a = 0 := BitVec.xor_self

/-- gf_sub is gf_add (41_field_arith.md R91), and an element added twice is gone. -/
theorem gfSub_gfAdd (a b : Byte) : gfSub (gfAdd a b) b = a := by
  calc gfSub (gfAdd a b) b
    _ = gfAdd (gfAdd a b) b := rfl
    _ = a := by rw [gfAdd_assoc, gfAdd_self, gfAdd_zero]

/-- Settles O18: the laws of xor. -/
theorem additionLaws : Obligations.AdditionLaws :=
  fun a b c => ⟨gfAdd_comm a b, gfAdd_assoc a b c, gfAdd_zero a, gfAdd_self a, gfSub_gfAdd a b⟩

end Sys2Proof.Machine

/-! PROOFS. The buffer commands, and the reads of unwritten entries by them, by EVAL and by INTERP (42_buffers.md R111 to
R116). -/

namespace Sys2Proof.Machine

/-- Settles O20: the write of one entry, which the completion step keeps. -/
theorem wcoefWritesOneCoefficient : Obligations.WcoefWritesOneCoefficient := by
  intro idx d s
  refine ⟨complete .noValue (writeCoef idx.toNat d s), rfl, ?_, fun k hk => ?_, rfl⟩
  · rw [entryAt_complete, entryAt_writeCoef_same]
  · rw [entryAt_complete, entryAt_writeCoef_other _ _ _ _ _ fun h => hk h.2]

/-- Settles O21: the write of one point, which the completion step keeps. -/
theorem wptWritesOnePoint : Obligations.WptWritesOnePoint := by
  intro idx x y s
  refine ⟨complete .noValue (writePoint idx.toNat x y s), rfl, ?_, ?_, fun k hk => ⟨?_, ?_⟩, rfl⟩
  · rw [entryAt_complete, entryAt_writePoint_px]
  · rw [entryAt_complete, entryAt_writePoint_py]
  · rw [entryAt_complete, entryAt_writePoint_other _ _ _ _ _ _ (.inr hk)]
  · rw [entryAt_complete, entryAt_writePoint_other _ _ _ _ _ _ (.inr hk)]

/-- What a value leaves once an unwritten read is noted (42_buffers.md R116, 60_exceptions.md R151; log entries 4 and 5). -/
theorem complete_value_noteUninit_true (v : Byte) (s : State) : complete (.value v) (noteUninit true s) =
    { s with result := v, busy := false, record := s.record ++ [.uninitRead], draws := s.draws + 1 } := rfl

/-- The same for a fault that is computed from free values: UNINIT_READ comes before its code (log entry 5). -/
theorem complete_fault_noteUninit_true (c : FaultCode) (s : State) : complete (.fault c) (noteUninit true s) =
    { s with fault := true, fcode := some c, busy := false,
             record := s.record ++ [.uninitRead, .fault c], draws := s.draws + 1 } := by
  rw [List.append_cons s.record]
  rfl

section Reads

variable {s : State} {b : Config.BufId} {idx : Byte}

/-- A written entry is returned, and its read is not noted (42_buffers.md R113 to R115). -/
theorem completeEntry_of_written {v : Byte} (h : s.entryAt b idx.toNat = some v) :
    completeEntry b idx s = { s with result := v, busy := false } := by
  rw [completeEntry, operand_of_entryAt .only h, written_of_entryAt h, Bool.not_true, noteUninit_false]
  rfl

theorem written_of_entryAt_none {i : Nat} (h : s.entryAt b i = none) : s.written b i = false := by
  simp [State.written, h]

/-- An unwritten entry gives some value, and its read is noted (42_buffers.md R116). -/
theorem completeEntry_of_unwritten (h : s.entryAt b idx.toNat = none) : ∃ v, completeEntry b idx s =
    { s with result := v, busy := false, record := s.record ++ [.uninitRead], draws := s.draws + 1 } := by
  rw [completeEntry, written_of_entryAt_none h]
  exact ⟨_, complete_value_noteUninit_true _ s⟩

end Reads

/-- Settles O22: the three commands are one read of an entry each. -/
theorem readCommandsReturnWrittenEntries : Obligations.ReadCommandsReturnWrittenEntries := by
  intro idx v s
  exact ⟨fun h => congrArg _ (completeEntry_of_written h), fun h => congrArg _ (completeEntry_of_written h),
    fun h => congrArg _ (completeEntry_of_written h)⟩

/-- Settles O23: the three commands are one read of an entry each. -/
theorem readCommandsOfUnwrittenEntries : Obligations.ReadCommandsOfUnwrittenEntries := by
  intro idx s
  exact ⟨fun h => (completeEntry_of_unwritten h).imp fun _ => congrArg _,
    fun h => (completeEntry_of_unwritten h).imp fun _ => congrArg _,
    fun h => (completeEntry_of_unwritten h).imp fun _ => congrArg _⟩

section Counts

variable {n : Count} {s : State}

theorem evalResult_of_le (hn : n.toNat ≤ 256) (x : Byte) (s : State) :
    evalResult x n s = .value (horner (s.operand .coef .only) x n.toNat) := if_neg (not_lt.2 hn)

theorem interpResult_of_le (hn : n.toNat ≤ 256) (s : State) :
    interpResult n s = resultOf (lagrangeZero (s.operand .px) (s.operand .py .weight) n.toNat) := if_neg (not_lt.2 hn)

/-- EVAL reads every coefficient below a legal count (43_eval.md R120). -/
theorem evalUninit_of_le (hn : n.toNat ≤ 256) (s : State) : evalUninit n s = !s.allWritten .coef n.toNat := by
  simp [evalUninit, hn]

/-- The x = 0 check reads an unwritten PX entry that no written 0 comes before: the check goes at least that far
(44_interp.md R131; log entry 22). -/
theorem interpUninit_of_unwritten_px (hn : n.toNat ≤ 256) {k : Nat} (hk : k < n.toNat) (hnone : s.entryAt .px k = none)
    (hbefore : ∀ i, i < k → s.entryAt .px i ≠ some 0 ∧ s.entryAt .px i ≠ none) : interpUninit n s = true := by
  cases hz : firstZero (s.operand .px) n.toNat with
  | none => simp [interpUninit, hn, hz, allWritten_of_unwritten hk hnone]
  | some z =>
    obtain ⟨-, hzero, -⟩ := firstZero_some hz
    have hkz : k ≤ z := by
      by_contra! hlt
      obtain ⟨hne, hsome⟩ := hbefore z hlt
      obtain ⟨x, hx⟩ := Option.ne_none_iff_exists'.1 hsome
      rw [operand_of_entryAt _ hx] at hzero
      exact hne (hzero ▸ hx)
    simp [interpUninit, hn, hz, allWritten_of_unwritten (Nat.lt_succ_of_le hkz) hnone]

/-- When both checks pass INTERP reads every PY entry below the count (44_interp.md R130; log entry 22). -/
theorem interpUninit_of_unwritten_py (hn : n.toNat ≤ 256) {k : Nat} (hk : k < n.toNat) (hnone : s.entryAt .py k = none)
    (hz : firstZero (s.operand .px) n.toNat = none) (hr : hasRepeat (s.operand .px) n.toNat = false) :
    interpUninit n s = true := by
  simp [interpUninit, hn, hz, hr, allWritten_of_unwritten hk hnone]

/-- An unwritten coefficient below the count: some value, and one UNINIT_READ (42_buffers.md R116). -/
theorem exec_eval_of_unwritten (hn : n.toNat ≤ 256) (x : Byte) {i : Nat} (hi : i < n.toNat)
    (hnone : s.entryAt .coef i = none) : ∃ v, exec (.eval x n) s =
      .next { s with result := v, busy := false, record := s.record ++ [.uninitRead], draws := s.draws + 1 } := by
  rw [exec, execEval, evalResult_of_le hn, evalUninit_of_le hn, allWritten_of_unwritten hi hnone, Bool.not_false]
  exact ⟨_, congrArg _ (complete_value_noteUninit_true _ s)⟩

/-- INTERP on a legal count when an unwritten entry is among those it reads. -/
theorem exec_interp_of_uninit (hn : n.toNat ≤ 256) (hu : interpUninit n s = true) : exec (.interp n) s =
    .next (complete (resultOf (lagrangeZero (s.operand .px) (s.operand .py .weight) n.toNat)) (noteUninit true s)) := by
  rw [exec, execInterp, interpResult_of_le hn, hu]

end Counts

/-- Settles O27: each clause reads an unwritten entry, and how the loops of EVAL and INTERP end says what results. -/
theorem unwrittenOperandsAreRecorded : Obligations.UnwrittenOperandsAreRecorded := by
  intro n s hn
  refine ⟨fun x ⟨i, hi, hnone⟩ => exec_eval_of_unwritten hn x hi hnone, fun ⟨k, hk, hnone, hbefore⟩ => ?_,
    fun xs hxs hp ⟨k, hk, hnone⟩ => ?_⟩
  · rw [exec_interp_of_uninit hn (interpUninit_of_unwritten_px hn hk hnone hbefore)]
    cases hl : lagrangeZero (s.operand .px) (s.operand .py .weight) n.toNat with
    | ok v => exact .inl ⟨v, congrArg _ (complete_value_noteUninit_true v s)⟩
    | error c => exact .inr ⟨c, lagrangeZero_error hl, congrArg _ (complete_fault_noteUninit_true c s)⟩
  · obtain ⟨hz, hr, v, hv⟩ := lagrangeZero_ok (s.operand .py .weight)
      (fun site i hi => operand_of_entryAt (s := s) (b := .px) site (hxs i hi)) hp
    rw [exec_interp_of_uninit hn (interpUninit_of_unwritten_py hn hk hnone hz hr), hv]
    exact ⟨v, congrArg _ (complete_value_noteUninit_true v s)⟩

end Sys2Proof.Machine

/-! PROOFS. EVAL: Horner's loop as the polynomial's power sum, and the laws that follow from the sum (43_eval.md R120,
R121). -/

namespace Sys2Proof.Machine

theorem gfAdd_gfMul (a b c : Byte) : gfMul (gfAdd a b) c = gfAdd (gfMul a c) (gfMul b c) := by
  rw [gfMul_comm, gfMul_gfAdd, gfMul_comm c a, gfMul_comm c b]

theorem gfPow_zero_of_pos {k : Nat} (hk : 0 < k) : gfPow 0 k = 0 := by
  cases k with
  | zero => exact absurd hk (lt_irrefl 0)
  | succ k => exact gfMul_zero _

theorem one_gfPow (k : Nat) : gfPow 1 k = 1 := by
  induction k with
  | zero => rfl
  | succ k ih => rw [gfPow, ih, gfMul_one]

/-- Terms that are 0 at the end of a sum may be left out. -/
theorem gfSum_of_zero_tail {f : Nat → Byte} {n m : Nat} (hnm : n ≤ m) (hf : ∀ i, n ≤ i → i < m → f i = 0) :
    gfSum f m = gfSum f n := by
  induction m, hnm using Nat.le_induction with
  | base => rfl
  | succ m hnm ih =>
    rw [gfSum, hf m hnm m.lt_succ_self, gfAdd_zero]
    exact ih fun i hi him => hf i hi (him.trans m.lt_succ_self)

/-- The loop's invariant: `n` turns multiply the accumulator by X to the `n` and add the terms still to come. -/
theorem hornerFrom_eq_gfSum (c : Nat → Byte) (x : Byte) (n : Nat) (acc : Byte) :
    hornerFrom c x n acc = gfAdd (gfMul acc (gfPow x n)) (gfSum (fun i => gfMul (c i) (gfPow x i)) n) := by
  induction n generalizing acc with
  | zero => rw [hornerFrom, gfPow, gfSum, gfMul_one, gfAdd_zero]
  | succ n ih =>
    have hpow : gfMul (gfMul acc x) (gfPow x n) = gfMul acc (gfPow x (n + 1)) := by
      rw [gfPow, gfMul_assoc, gfMul_comm x]
    rw [hornerFrom, ih, gfAdd_gfMul, hpow, gfAdd_assoc, gfSum, gfAdd_comm (gfMul (c n) _)]

/-- Horner's loop gives the polynomial's value as a power sum (43_eval.md R121). -/
theorem horner_eq_gfSum (c : Nat → Byte) (x : Byte) (n : Nat) :
    horner c x n = gfSum (fun i => gfMul (c i) (gfPow x i)) n := by
  rw [horner, hornerFrom_eq_gfSum, zero_gfMul, zero_gfAdd]

theorem horner_congr {c d : Nat → Byte} (x : Byte) {n : Nat} (h : ∀ i, i < n → c i = d i) :
    horner c x n = horner d x n :=
  hornerFrom_congr x n h 0

/-- At X = 0 every power but the first is 0 (43_eval.md R121). -/
theorem horner_zero (c : Nat → Byte) {n : Nat} (hn : 1 ≤ n) : horner c 0 n = c 0 := by
  have htail : ∀ i, 1 ≤ i → i < n → gfMul (c i) (gfPow 0 i) = 0 := fun i hi _ => by
    rw [gfPow_zero_of_pos hi, gfMul_zero]
  rw [horner_eq_gfSum, gfSum_of_zero_tail hn htail]
  exact (zero_gfAdd _).trans (gfMul_one _)

/-- At X = 1 every power is 1 (43_eval.md R121). -/
theorem horner_one (c : Nat → Byte) (n : Nat) : horner c 1 n = gfSum c n := by
  simp only [horner_eq_gfSum, one_gfPow, gfMul_one]

/-- Coefficients that are 0 above the count add terms that are 0 (43_eval.md R121). -/
theorem horner_of_zero_tail {c : Nat → Byte} (x : Byte) {n m : Nat} (hnm : n ≤ m)
    (hc : ∀ i, n ≤ i → i < m → c i = 0) : horner c x m = horner c x n := by
  rw [horner_eq_gfSum, horner_eq_gfSum]
  exact gfSum_of_zero_tail hnm fun i hi him => by rw [hc i hi him, zero_gfMul]

/-- Settles O25: the laws of the power sum, which the loop gives. -/
theorem hornerLaws : Obligations.HornerLaws := fun c x n hn =>
  ⟨horner_eq_gfSum c x n, rfl, horner_zero c hn, horner_one c n, fun _ hnm hc => horner_of_zero_tail x hnm hc,
    fun _ hcd => horner_congr x hcd⟩

/-- EVAL over written coefficients completes with what Horner's loop gives, and notes no read (43_eval.md R120). -/
theorem exec_eval_of_coefs {n : Count} {c : Nat → Byte} {s : State} (hn : n.toNat ≤ 256) (hc : s.Coefs n.toNat c)
    (x : Byte) : exec (.eval x n) s = .next { s with result := horner c x n.toNat, busy := false } := by
  have hread : horner (s.operand .coef .only) x n.toNat = horner c x n.toNat :=
    horner_congr x fun i hi => operand_of_entryAt .only (hc i hi)
  rw [exec, execEval, evalResult_of_le hn, hread, evalUninit_of_le hn, allWritten_of_entries hc, Bool.not_true,
    noteUninit_false]
  rfl

/-- Settles O24: EVAL runs Horner's loop on the coefficients, and the loop gives the power sum. -/
theorem evalReturnsThePolynomialsValue : Obligations.EvalReturnsThePolynomialsValue := by
  intro x n c s hn hc
  rw [exec_eval_of_coefs hn hc, horner_eq_gfSum]

end Sys2Proof.Machine

/-! PROOFS. The checks of INTERP that come before its loops: an x of 0 and a repeated x (44_interp.md R131, R132). -/

namespace Sys2Proof.Machine

/-- An x of 0 below the count stops the x = 0 check, there or earlier (44_interp.md R131). -/
theorem exists_firstZero {p : Config.ReadSite → Nat → Byte} {n k : Nat} (hk : k < n) (h0 : p .zeroCheck k = 0) :
    ∃ m ≤ k, firstZero p n = some m := by
  obtain ⟨m, hm⟩ := Option.ne_none_iff_exists'.1 fun hnone => firstZero_none.1 hnone k hk h0
  obtain ⟨-, -, hbefore⟩ := firstZero_some hm
  exact ⟨m, not_lt.1 fun hlt => hbefore k hlt h0, hm⟩

/-- An INTERP that the x = 0 check stops reads PX as far as the check went (44_interp.md R131; log entry 22). -/
theorem exec_interp_of_firstZero {n : Count} {s : State} (hn : n.toNat ≤ 256) {m : Nat}
    (hm : firstZero (s.operand .px) n.toNat = some m) :
    exec (.interp n) s = .next (takeFault .xZero (noteUninit (!s.allWritten .px (m + 1)) s)) := by
  have hres : lagrangeZero (s.operand .px) (s.operand .py .weight) n.toNat = .error .xZero := by simp [lagrangeZero, hm]
  have hread : interpUninit n s = !s.allWritten .px (m + 1) := by simp [interpUninit, hn, hm]
  rw [exec, execInterp, interpResult_of_le hn, hres, hread, resultOf, complete_fault]

/-- Settles O29: the check stops at or before the x of 0, and notes a read only if an entry up to there is unwritten. -/
theorem interpWithAZeroXRaisesXZero : Obligations.InterpWithAZeroXRaisesXZero := by
  intro n k s hn hk h0
  obtain ⟨m, hmk, hm⟩ := exists_firstZero hk (operand_of_entryAt .zeroCheck h0)
  refine ⟨_, _, exec_interp_of_firstZero hn hm, fun hbefore => ?_⟩
  have hwritten : s.allWritten .px (m + 1) = true := allWritten_iff.2 fun i hi => by
    rcases (show i ≤ k by omega).lt_or_eq with hlt | rfl
    · exact Option.isSome_iff_ne_none.2 (hbefore i hlt)
    · exact written_of_entryAt h0
  rw [hwritten]
  exact ⟨rfl, rfl⟩

section Checks

variable {n : Count} {xs : Nat → Byte} {s : State} (hn : n.toNat ≤ 256)
  (hx : ∀ k, k < n.toNat → s.entryAt .px k = some (xs k))
include hn hx

/-- Over written x the x = 0 check leaves nothing but X_ZERO (44_interp.md R131). -/
theorem exec_interp_of_zero {k : Nat} (hk : k < n.toNat) (h0 : xs k = 0) :
    exec (.interp n) s = .next (takeFault .xZero s) := by
  obtain ⟨more, d, hexec, hnothing⟩ := interpWithAZeroXRaisesXZero n k s hn hk (h0 ▸ hx k hk)
  obtain ⟨rfl, rfl⟩ := hnothing fun i hi => by rw [hx i (hi.trans hk)]; exact Option.some_ne_none _
  rw [hexec, List.append_nil]
  rfl

/-- Over written nonzero x the distinctness check leaves nothing but DIV_ZERO (44_interp.md R132). -/
theorem exec_interp_of_repeat (hne : ∀ k, k < n.toNat → xs k ≠ 0) {i j : Nat} (hij : i < j) (hj : j < n.toNat)
    (heq : xs i = xs j) : exec (.interp n) s = .next (takeFault .divZero s) := by
  have hread : ∀ site k, k < n.toNat → s.operand .px site k = xs k := fun site k hk => operand_of_entryAt site (hx k hk)
  have hzero : firstZero (s.operand .px) n.toNat = none :=
    firstZero_none.2 fun k hk => by rw [hread _ k hk]; exact hne k hk
  have hrepeat : hasRepeat (s.operand .px) n.toNat = true :=
    (hasRepeat_iff _ _).2 ⟨i, j, hij, hj, by rw [hread _ i (hij.trans hj), hread _ j hj, heq]⟩
  have hres : lagrangeZero (s.operand .px) (s.operand .py .weight) n.toNat = .error .divZero := by
    simp [lagrangeZero, hzero, hrepeat]
  have hnoted : interpUninit n s = false := by simp [interpUninit, hzero, hrepeat, allWritten_of_entries hx]
  rw [exec, execInterp, interpResult_of_le hn, hres, hnoted, noteUninit_false, resultOf, complete_fault]

end Checks

/-- Settles O30: the x = 0 check comes first, and without an x of 0 the distinctness check finds the pair. -/
theorem interpWithARepeatedXRaisesDivZero : Obligations.InterpWithARepeatedXRaisesDivZero :=
  fun _ _ _ _ _ hn hx hij hj heq =>
    ⟨fun hne => exec_interp_of_repeat hn hx hne hij hj heq, fun ⟨_, hk, h0⟩ => exec_interp_of_zero hn hx hk h0⟩

/-- There are 255 nonzero bytes, so 256 of them hold an equal pair (44_interp.md R130). -/
theorem exists_repeat_of_ne_zero {xs : Nat → Byte} (hne : ∀ k, k < 256 → xs k ≠ 0) :
    ∃ i j, i < j ∧ j < 256 ∧ xs i = xs j := by
  have hmaps : ∀ k ∈ Finset.range 256, (xs k).toNat ∈ Finset.Ico 1 256 := fun k hk => by
    have hpos : (xs k).toNat ≠ 0 := fun h0 => hne k (Finset.mem_range.1 hk) (BitVec.eq_of_toNat_eq h0)
    exact Finset.mem_Ico.2 ⟨Nat.one_le_iff_ne_zero.2 hpos, (xs k).isLt⟩
  obtain ⟨i, hi, j, hj, hij, heq⟩ := Finset.exists_ne_map_eq_of_card_lt_of_maps_to (by simp) hmaps
  have heq := BitVec.eq_of_toNat_eq heq
  rcases hij.lt_or_gt with hlt | hgt
  · exact ⟨i, j, hlt, Finset.mem_range.1 hj, heq⟩
  · exact ⟨j, i, hgt, Finset.mem_range.1 hi, heq.symm⟩

/-- Settles O31: either an x is 0, or two of the 256 nonzero x are equal. -/
theorem interpOf256PointsAlwaysFaults : Obligations.InterpOf256PointsAlwaysFaults := by
  intro xs s hx
  by_cases hzero : ∃ k, k < 256 ∧ xs k = 0
  · obtain ⟨k, hk, h0⟩ := hzero
    exact ⟨.xZero, .inl rfl, exec_interp_of_zero (n := 256) le_rfl hx hk h0⟩
  · have hne : ∀ k, k < 256 → xs k ≠ 0 := fun k hk h0 => hzero ⟨k, hk, h0⟩
    obtain ⟨i, j, hij, hj, heq⟩ := exists_repeat_of_ne_zero hne
    exact ⟨.divZero, .inr rfl, exec_interp_of_repeat (n := 256) le_rfl hx hne hij hj heq⟩

end Sys2Proof.Machine

/-! PROOFS. The loops of INTERP as the Lagrange sum at 0, which does not depend on the order of the points (44_interp.md R130,
R133). -/

namespace Sys2Proof.Machine

/-- The basis factor of points i and j, 1 for the index the inner loop skips (44_interp.md R133). -/
def lagrangeFactor (xs : Nat → Byte) (i j : Nat) : Byte := if j = i then 1 else gfMul (xs j) (gfInv (xs i ^^^ xs j))

/-- The Lagrange sum at 0 (44_interp.md R130): `lagrangeZero_eq` ties it to the loops. -/
def lagrangeSum (xs ys : Nat → Byte) (n : Nat) : Byte :=
  gfSum (fun i => gfMul (gfProd (lagrangeFactor xs i) n) (ys i)) n

/-- A sum as a loop over the indexes, the lowest first. -/
theorem gfSum_eq_foldl (f : Nat → Byte) (n : Nat) : gfSum f n = (List.range n).foldl (fun acc i => gfAdd acc (f i)) 0 := by
  induction n with
  | zero => rfl
  | succ n ih => rw [gfSum, ih, List.range_succ, List.foldl_append, List.foldl_cons, List.foldl_nil]

/-- A product as a loop over the indexes, the lowest first. -/
theorem gfProd_eq_foldl (f : Nat → Byte) (n : Nat) : gfProd f n = (List.range n).foldl (fun l i => gfMul l (f i)) 1 := by
  induction n with
  | zero => rfl
  | succ n ih => rw [gfProd, ih, List.range_succ, List.foldl_append, List.foldl_cons, List.foldl_nil]

/-- Distinct x tell the points apart, in either order of the indexes. -/
theorem ProperPoints.index_eq {n : Nat} {xs : Nat → Byte} (hp : ProperPoints n xs) {i j : Nat} (hi : i < n) (hj : j < n)
    (heq : xs i = xs j) : i = j := by
  rcases lt_trichotomy i j with hlt | rfl | hgt
  · exact absurd heq (hp.2 j hj i hlt)
  · rfl
  · exact absurd heq.symm (hp.2 i hi j hgt)

section Loops

variable {px : Config.ReadSite → Nat → Byte} {n : Nat} {xs : Nat → Byte}
  (hx : ∀ site i, i < n → px site i = xs i) (hp : ProperPoints n xs)
include hx hp

/-- Two points' division does not fault, and 0 minus an x is that x (44_interp.md R133). -/
theorem basisFactor_eq {i j : Nat} (hi : i < n) (hj : j < n) (hji : j ≠ i) :
    basisFactor px i j = .ok (lagrangeFactor xs i j) := by
  have hd : gfSub (xs i) (xs j) ≠ 0 := fun h0 => hji (hp.index_eq hj hi (BitVec.xor_eq_zero_iff.1 h0).symm)
  have hnum : gfSub 0x00 (xs j) = xs j := zero_gfAdd (xs j)
  rw [basisFactor, hx _ j hj, hx _ i hi, hx _ j hj, gfDiv_of_ne _ hd, hnum, lagrangeFactor, if_neg hji, gfSub]

/-- The inner loop multiplies the basis factors of its indexes. -/
theorem basisLoop_eq_foldl {i : Nat} (hi : i < n) (js : List Nat) (hjs : ∀ j ∈ js, j < n) (l : Byte) :
    basisLoop px i js l = .ok (js.foldl (fun l j => gfMul l (lagrangeFactor xs i j)) l) := by
  induction js generalizing l with
  | nil => rfl
  | cons j js ih =>
    obtain ⟨hj, hjs⟩ := List.forall_mem_cons.1 hjs
    rw [basisLoop, List.foldl_cons]
    by_cases hji : j = i
    · rw [if_pos hji, ih hjs, lagrangeFactor, if_pos hji, gfMul_one]
    · rw [if_neg hji, basisFactor_eq hx hp hi hj hji]
      exact ih hjs _

/-- The outer loop adds the weighted basis products of its indexes. -/
theorem sumLoop_eq_foldl (py : Nat → Byte) (is : List Nat) (his : ∀ i ∈ is, i < n) (acc : Byte) :
    sumLoop px py n is acc =
      .ok (is.foldl (fun acc i => gfAdd acc (gfMul (gfProd (lagrangeFactor xs i) n) (py i))) acc) := by
  induction is generalizing acc with
  | nil => rfl
  | cons i is ih =>
    obtain ⟨hi, his⟩ := List.forall_mem_cons.1 his
    rw [sumLoop, basisLoop_eq_foldl hx hp hi _ (fun j => List.mem_range.1), ← gfProd_eq_foldl]
    exact ih his _

/-- INTERP's loops over proper points give the Lagrange sum (44_interp.md R130). -/
theorem lagrangeZero_eq (py : Nat → Byte) : lagrangeZero px py n = .ok (lagrangeSum xs py n) := by
  obtain ⟨hzero, hrepeat, -⟩ := lagrangeZero_ok py hx hp
  rw [lagrangeZero, hzero, hrepeat, lagrangeSum, gfSum_eq_foldl]
  exact sumLoop_eq_foldl hx hp py _ (fun i => List.mem_range.1) 0x00

end Loops

theorem gfSum_congr {f g : Nat → Byte} {n : Nat} (h : ∀ i, i < n → f i = g i) : gfSum f n = gfSum g n := by
  induction n with
  | zero => rfl
  | succ n ih => rw [gfSum, gfSum, h n n.lt_succ_self, ih fun i hi => h i (hi.trans n.lt_succ_self)]

theorem gfProd_congr {f g : Nat → Byte} {n : Nat} (h : ∀ i, i < n → f i = g i) : gfProd f n = gfProd g n := by
  induction n with
  | zero => rfl
  | succ n ih => rw [gfProd, gfProd, h n n.lt_succ_self, ih fun i hi => h i (hi.trans n.lt_succ_self)]

/-- INTERP over written proper points completes with the Lagrange sum, and notes no read (44_interp.md R130). -/
theorem exec_interp_of_points {n : Count} {xs ys : Nat → Byte} {s : State} (hn : n.toNat ≤ 256)
    (hs : s.Points n.toNat xs ys) (hp : ProperPoints n.toNat xs) :
    exec (.interp n) s = .next { s with result := lagrangeSum xs ys n.toNat, busy := false } := by
  have hx : ∀ site i, i < n.toNat → s.operand .px site i = xs i := fun site i hi => operand_of_entryAt site (hs i hi).1
  obtain ⟨hzero, hrepeat, -⟩ := lagrangeZero_ok ys hx hp
  have hnoted : interpUninit n s = false := by
    simp [interpUninit, hzero, allWritten_of_entries fun i hi => (hs i hi).1, allWritten_of_entries fun i hi => (hs i hi).2]
  have hsum : lagrangeSum xs (s.operand .py .weight) n.toNat = lagrangeSum xs ys n.toNat :=
    gfSum_congr fun i hi => by rw [operand_of_entryAt .weight (hs i hi).2]
  rw [exec, execInterp, interpResult_of_le hn, lagrangeZero_eq hx hp, hsum, hnoted, noteUninit_false]
  rfl

/-- Settles O28: the loops give the Lagrange sum. -/
theorem interpReturnsTheLagrangeSum : Obligations.InterpReturnsTheLagrangeSum :=
  fun _ _ _ _ hn hs hp => exec_interp_of_points hn hs hp

section Order

variable {n : Nat} {p : Nat → Nat} (hlt : ∀ i, i < n → p i < n) (hinj : ∀ i j, i < n → j < n → p i = p j → i = j)
include hlt hinj

/-- A one-to-one map of the indexes below `n` to themselves lists them in another order. -/
theorem map_range_perm : ((List.range n).map p).Perm (List.range n) := by
  have hnodup : ((List.range n).map p).Nodup := List.nodup_range.map_on fun i hi j hj =>
    hinj i j (List.mem_range.1 hi) (List.mem_range.1 hj)
  have hsubset : (List.range n).map p ⊆ List.range n := by
    intro k hk
    obtain ⟨i, hi, rfl⟩ := List.mem_map.1 hk
    exact List.mem_range.2 (hlt i (List.mem_range.1 hi))
  exact (hnodup.subperm hsubset).perm_of_length_le (by simp)

/-- A loop whose operation may take its operands in any order gives the same over reordered indexes. -/
theorem foldl_range_comp {op : Byte → Byte → Byte} (hop : ∀ a b c, op (op a b) c = op (op a c) b) (f : Nat → Byte)
    (z : Byte) :
    (List.range n).foldl (fun acc i => op acc (f (p i))) z = (List.range n).foldl (fun acc i => op acc (f i)) z := by
  have hcomm : RightCommutative fun acc i => op acc (f i) := ⟨fun acc i j => hop acc (f i) (f j)⟩
  calc (List.range n).foldl (fun acc i => op acc (f (p i))) z
    _ = ((List.range n).map p).foldl (fun acc i => op acc (f i)) z := by rw [List.foldl_map]
    _ = (List.range n).foldl (fun acc i => op acc (f i)) z := (map_range_perm hlt hinj).foldl_eq z

theorem gfSum_comp (f : Nat → Byte) : gfSum (fun i => f (p i)) n = gfSum f n := by
  rw [gfSum_eq_foldl, gfSum_eq_foldl]
  exact foldl_range_comp hlt hinj (fun a b c => by rw [gfAdd_assoc, gfAdd_comm b, gfAdd_assoc]) f 0

theorem gfProd_comp (f : Nat → Byte) : gfProd (fun i => f (p i)) n = gfProd f n := by
  rw [gfProd_eq_foldl, gfProd_eq_foldl]
  exact foldl_range_comp hlt hinj (fun a b c => by rw [gfMul_assoc, gfMul_comm b, gfMul_assoc]) f 1

/-- The Lagrange sum does not depend on the order of the points (44_interp.md R133). -/
theorem lagrangeSum_comp (xs ys : Nat → Byte) :
    lagrangeSum (fun i => xs (p i)) (fun i => ys (p i)) n = lagrangeSum xs ys n := by
  have hfactor : ∀ i, i < n → ∀ j, j < n → lagrangeFactor (fun i => xs (p i)) i j = lagrangeFactor xs (p i) (p j) :=
    fun i hi j hj => if_congr ⟨congrArg p, hinj j i hj hi⟩ rfl rfl
  have hbasis : ∀ i, i < n → gfProd (lagrangeFactor (fun i => xs (p i)) i) n = gfProd (lagrangeFactor xs (p i)) n :=
    fun i hi => (gfProd_congr (hfactor i hi)).trans (gfProd_comp hlt hinj (lagrangeFactor xs (p i)))
  calc lagrangeSum (fun i => xs (p i)) (fun i => ys (p i)) n
    _ = gfSum (fun i => gfMul (gfProd (lagrangeFactor xs (p i)) n) (ys (p i))) n :=
      gfSum_congr fun i hi => by rw [hbasis i hi]
    _ = lagrangeSum xs ys n := gfSum_comp hlt hinj fun k => gfMul (gfProd (lagrangeFactor xs k) n) (ys k)

/-- The points stay proper in another order. -/
theorem ProperPoints.comp {xs : Nat → Byte} (hp : ProperPoints n xs) : ProperPoints n fun i => xs (p i) := by
  refine ⟨fun i hi => hp.1 (p i) (hlt i hi), fun j hj i hij heq => ?_⟩
  have hi : i < n := hij.trans hj
  exact hij.ne (hinj i j hi hj (hp.index_eq (hlt i hi) (hlt j hj) heq))

end Order

/-- Settles O32: INTERP completes with the Lagrange sum in both states, and the sum is one. -/
theorem interpIgnoresTheOrderOfPoints : Obligations.InterpIgnoresTheOrderOfPoints := by
  intro n xs ys p s t hn hs hp hlt hinj ht
  refine ⟨lagrangeSum xs ys n.toNat, exec_interp_of_points hn hs hp, ?_⟩
  rw [← lagrangeSum_comp hlt hinj xs ys]
  exact exec_interp_of_points hn ht (ProperPoints.comp hlt hinj hp)

end Sys2Proof.Machine

/-! PROOFS. The block's arithmetic as a field, and INTERP as Mathlib's Lagrange interpolation over it: N points on a polynomial
of degree below N give back its constant term (44_interp.md R134). -/

namespace Sys2Proof.Machine

/-- `φ` carries the block's addition and multiplication into the field `K` (41_field_arith.md R98, R99). Of K only that it is a
field is used; `exists_fieldModel` says there is one. -/
structure FieldModel {K : Type} [Field K] (φ : Byte → K) : Prop where
  injective : Function.Injective φ
  map_gfAdd : ∀ a b, φ (gfAdd a b) = φ a + φ b
  map_gfMul : ∀ a b, φ (gfMul a b) = φ a * φ b

/-- The inverse with 0 for 0, as a field has it; the divider never forms the inverse of 0 (41_field_arith.md R93). -/
def gfInvOrZero (b : Byte) : Byte := if b = 0 then 0 else gfInv b

theorem gfInvOrZero_zero : gfInvOrZero 0 = 0 := if_pos rfl

theorem gfMul_gfInvOrZero (b : Byte) (hb : b ≠ 0) : gfMul b (gfInvOrZero b) = 1 := by
  rw [gfInvOrZero, if_neg hb, gfMul_gfInv b hb]

/-- The bytes are a field under the block's operations (41_field_arith.md R98, R99). -/
@[reducible] def gfField : Field Byte :=
  @Field.ofMinimalAxioms Byte ⟨gfAdd⟩ ⟨gfMul⟩ ⟨id⟩ ⟨gfInvOrZero⟩ ⟨0⟩ ⟨1⟩ gfAdd_assoc zero_gfAdd gfAdd_self gfMul_assoc
    gfMul_comm one_gfMul gfMul_gfInvOrZero gfInvOrZero_zero gfMul_gfAdd ⟨0, 1, by decide⟩

theorem exists_fieldModel : ∃ (K : Type) (_ : Field K) (φ : Byte → K), FieldModel φ :=
  ⟨Byte, gfField, id, @FieldModel.mk Byte gfField id Function.injective_id (fun _ _ => rfl) fun _ _ => rfl⟩

namespace FieldModel

variable {K : Type} [Field K] {φ : Byte → K} (h : FieldModel φ)
include h

theorem map_zero : φ 0 = 0 := by
  have hsum : φ 0 + φ 0 = φ 0 := by rw [← h.map_gfAdd, gfAdd_zero]
  exact add_eq_left.1 hsum

theorem map_ne_zero {a : Byte} (ha : a ≠ 0) : φ a ≠ 0 := fun h0 => ha (h.injective (h0.trans h.map_zero.symm))

theorem map_one : φ 1 = 1 := by
  have hprod : φ 1 * φ 1 = φ 1 := by rw [← h.map_gfMul, gfMul_one]
  exact mul_eq_left₀ (h.map_ne_zero (by decide)) |>.1 hprod

/-- Every element is its own negative (41_field_arith.md R91). -/
theorem map_neg (a : Byte) : -φ a = φ a :=
  neg_eq_of_add_eq_zero_left (by rw [← h.map_gfAdd, gfAdd_self, h.map_zero])

theorem map_xor (a b : Byte) : φ (a ^^^ b) = φ a - φ b := by
  rw [sub_eq_add_neg, h.map_neg]
  exact h.map_gfAdd a b

theorem map_gfInv {b : Byte} (hb : b ≠ 0) : φ (gfInv b) = (φ b)⁻¹ :=
  eq_inv_of_mul_eq_one_right (by rw [← h.map_gfMul, gfMul_gfInv b hb, h.map_one])

theorem map_gfSum (f : Nat → Byte) (n : Nat) : φ (gfSum f n) = ∑ i ∈ Finset.range n, φ (f i) := by
  induction n with
  | zero => exact h.map_zero
  | succ n ih => rw [gfSum, h.map_gfAdd, ih, Finset.sum_range_succ]

theorem map_gfProd (f : Nat → Byte) (n : Nat) : φ (gfProd f n) = ∏ i ∈ Finset.range n, φ (f i) := by
  induction n with
  | zero => exact h.map_one
  | succ n ih => rw [gfProd, h.map_gfMul, ih, Finset.prod_range_succ]

theorem map_gfPow (x : Byte) (k : Nat) : φ (gfPow x k) = φ x ^ k := by
  induction k with
  | zero => rw [gfPow, h.map_one, pow_zero]
  | succ k ih => rw [gfPow, h.map_gfMul, ih, pow_succ]

/-- The basis product is the Lagrange basis polynomial at 0 (44_interp.md R130, R133). -/
theorem map_basis {n i : Nat} {xs : Nat → Byte} (hp : ProperPoints n xs) (hi : i < n) :
    φ (gfProd (lagrangeFactor xs i) n) =
      (Lagrange.basis (Finset.range n) (fun j => φ (xs j)) i).eval 0 := by
  have hfactor : ∀ j ∈ (Finset.range n).erase i, φ (lagrangeFactor xs i j) =
      (Lagrange.basisDivisor (φ (xs i)) (φ (xs j))).eval 0 := fun j hj => by
    obtain ⟨hji, hj⟩ := Finset.mem_erase.1 hj
    have hd : xs i ^^^ xs j ≠ 0 := fun h0 =>
      hji (hp.index_eq hi (Finset.mem_range.1 hj) (BitVec.xor_eq_zero_iff.1 h0)).symm
    rw [lagrangeFactor, if_neg hji, h.map_gfMul, h.map_gfInv hd, h.map_xor, Lagrange.basisDivisor, Polynomial.eval_mul,
      Polynomial.eval_C, Polynomial.eval_sub, Polynomial.eval_X, Polynomial.eval_C, zero_sub, h.map_neg, mul_comm]
  have hskip : φ (lagrangeFactor xs i i) = 1 := by rw [lagrangeFactor, if_pos rfl, h.map_one]
  rw [h.map_gfProd, ← Finset.mul_prod_erase _ _ (Finset.mem_range.2 hi), hskip, one_mul, Lagrange.basis,
    Polynomial.eval_prod]
  exact Finset.prod_congr rfl hfactor

/-- The Lagrange sum is the interpolating polynomial at 0 (44_interp.md R130). -/
theorem map_lagrangeSum {n : Nat} {xs : Nat → Byte} (ys : Nat → Byte) (hp : ProperPoints n xs) :
    φ (lagrangeSum xs ys n) =
      (Lagrange.interpolate (Finset.range n) (fun i => φ (xs i)) fun i => φ (ys i)).eval 0 := by
  rw [lagrangeSum, h.map_gfSum, Lagrange.interpolate_apply, Polynomial.eval_finsetSum]
  refine Finset.sum_congr rfl fun i hi => ?_
  rw [h.map_gfMul, h.map_basis hp (Finset.mem_range.1 hi), Polynomial.eval_mul, Polynomial.eval_C, mul_comm]

end FieldModel

/-- The polynomial that EVAL evaluates, over the field (43_eval.md R120): `FieldModel.map_horner` ties it to the loop. -/
noncomputable def hornerPoly {K : Type} [Field K] (φ : Byte → K) (c : Nat → Byte) (m : Nat) : Polynomial K :=
  ∑ i : Fin m, Polynomial.C (φ (c i)) * Polynomial.X ^ (i : Nat)

namespace FieldModel

variable {K : Type} [Field K] {φ : Byte → K} (h : FieldModel φ)
include h

/-- Horner's loop is the polynomial's value (43_eval.md R121). -/
theorem map_horner (c : Nat → Byte) (x : Byte) (m : Nat) : φ (horner c x m) = (hornerPoly φ c m).eval (φ x) := by
  rw [horner_eq_gfSum, h.map_gfSum, Finset.sum_range, hornerPoly, Polynomial.eval_finsetSum]
  refine Finset.sum_congr rfl fun i _ => ?_
  rw [h.map_gfMul, h.map_gfPow, Polynomial.eval_mul, Polynomial.eval_C, Polynomial.eval_pow, Polynomial.eval_X]

/-- A polynomial of degree below the number of points is the one that interpolates its values, so the Lagrange sum at 0 is its
value at 0 (44_interp.md R134). -/
theorem lagrangeSum_of_horner {c xs ys : Nat → Byte} {m n : Nat} (hm : 1 ≤ m) (hmn : m ≤ n) (hp : ProperPoints n xs)
    (hys : ∀ i, i < n → ys i = horner c (xs i) m) : lagrangeSum xs ys n = c 0 := by
  have hdistinct : Set.InjOn (fun i => φ (xs i)) (Finset.range n) := fun i hi j hj heq =>
    hp.index_eq (Finset.mem_range.1 hi) (Finset.mem_range.1 hj) (h.injective heq)
  have hdegree : (hornerPoly φ c m).degree < (Finset.range n).card := by
    rw [Finset.card_range]
    exact (Polynomial.degree_sum_fin_lt _).trans_le (by exact_mod_cast hmn)
  have hvalues : ∀ i ∈ Finset.range n, (hornerPoly φ c m).eval (φ (xs i)) = φ (ys i) := fun i hi => by
    rw [hys i (Finset.mem_range.1 hi), h.map_horner]
  apply h.injective
  calc φ (lagrangeSum xs ys n)
    _ = (hornerPoly φ c m).eval 0 := by
      rw [h.map_lagrangeSum ys hp, ← Lagrange.eq_interpolate_of_eval_eq _ hdistinct hdegree hvalues]
    _ = φ (c 0) := by rw [← h.map_zero, ← h.map_horner, horner_zero c hm]

end FieldModel

/-- Settles O33: the Lagrange sum of points on the polynomial is its constant term, over the field the bytes are. -/
theorem interpRecoversTheConstantTerm : Obligations.InterpRecoversTheConstantTerm := by
  intro n d c xs ys s hn hd hs hp hys
  obtain ⟨K, _, φ, h⟩ := exists_fieldModel
  rw [exec_interp_of_points hn hs hp, h.lagrangeSum_of_horner d.succ_pos hd hp hys]

end Sys2Proof.Machine

/-! PROOFS. Fault entry: what raises a fault, and that nothing else of the block changes with it (60_exceptions.md R141 to
R143); and the turn of an idle block (R156). -/

namespace Sys2Proof.Machine

/-- A word that matches no row of the opcode map is no command (30_encoding.md R65, R66). -/
theorem decode_of_unmatched {w : Word} (h : ∀ r ∈ opRows, w &&& r.mask ≠ r.pattern) :
    decode w = .error (rejectReason w) := by
  have hnone : opRows.find? (OpRow.admits · w) = none :=
    List.find?_eq_none.2 fun r hr hadmits => h r hr (OpRow.admits_iff.1 hadmits)
  rw [decode, hnone]

/-- Settles O5: the decoder finds no row, and fault entry leaves all else. -/
theorem unmatchedWordRaisesIllegalCmd : Obligations.UnmatchedWordRaisesIllegalCmd := by
  intro s ht hb hunmatched
  have hdecode : decode s.popTurn.cur = .error (rejectReason s.cur) := decode_of_unmatched hunmatched
  rw [step_of_block ht, blockTurn, completeCurrent, hdecode]
  exact if_pos hb

/-- Settles O3: the block's turn does nothing while BUSY = 0. -/
theorem idleBlockKeepsItsState : Obligations.IdleBlockKeepsItsState := by
  intro s ht hb
  rw [step_of_block ht]
  exact if_neg (by simp [hb])

/-- A command that faults has no effect before its completion step but the note of an unwritten read. -/
theorem Effects.eq_noteUninit_of_fault {i : Instr} {s m : State} {c : FaultCode} (h : Effects i s (.fault c) m) :
    ∃ u, m = noteUninit u s := by
  cases h with
  | plain => exact ⟨false, (noteUninit_false s).symm⟩
  | reads _ u => exact ⟨u, rfl⟩

/-- Settles O35: the completion step sets FAULT only for a command that returned a fault, and such a command wrote nothing. -/
theorem faultEntryChangesNothingElse : Obligations.FaultEntryChangesNothingElse := by
  intro i s t hs hexec hft
  obtain ⟨r, m, rfl, heff⟩ := exec_next hexec
  obtain ⟨hfault, -⟩ | ⟨c, rfl, -, -⟩ := complete_fault_cases r m
  · obtain ⟨_, _, _, _, _, rfl⟩ := heff.frame
    exact absurd (hft.symm.trans (hfault.trans hs)) Bool.false_ne_true.symm
  · obtain ⟨u, rfl⟩ := heff.eq_noteUninit_of_fault
    refine ⟨c, if u then [.uninitRead] else [], s.draws + u.toNat, ?_, rfl⟩
    cases u with
    | false => exact .inl rfl
    | true => exact .inr rfl

/-- The causes of a fault and the code each raises, where PX was written (60_exceptions.md R140): `fcode_eq_some_iff` ties
them to `exec`. A cause that R143 puts behind another holds only without that other, so a command has at most one. -/
inductive FaultCause (s : State) : Instr → FaultCode → Prop where
  | evalLength {x : Byte} {n : Count} (hn : 256 < n.toNat) : FaultCause s (.eval x n) .badLen
  | interpLength {n : Count} (hn : 256 < n.toNat) : FaultCause s (.interp n) .badLen
  | romIndex {k : Count} (hk : 509 < k.toNat) : FaultCause s (.alog k) .romRange
  | zeroX {n : Count} {k : Nat} (hn : n.toNat ≤ 256) (hk : k < n.toNat) (h0 : s.entryAt .px k = some 0) :
      FaultCause s (.interp n) .xZero
  | zeroDivisor {a : Byte} : FaultCause s (.div a 0) .divZero
  | repeatedX {n : Count} {j k : Nat} (hn : n.toNat ≤ 256) (hne : ∀ k, k < n.toNat → s.entryAt .px k ≠ some 0)
      (hjk : j < k) (hk : k < n.toNat) (heq : s.entryAt .px j = s.entryAt .px k) : FaultCause s (.interp n) .divZero

/-- The points that the command uses were written (42_buffers.md R116; log entry 4). -/
def PointsWritten (i : Instr) (s : State) : Prop :=
  ∀ n, i = .interp n → n.toNat ≤ 256 → ∀ k, k < n.toNat → s.entryAt .px k ≠ none

/-- A written x is what the x = 0 check finds. -/
theorem PointsWritten.entryAt_px {n : Count} {s : State} (hpx : PointsWritten (.interp n) s) (hn : n.toNat ≤ 256) (k : Nat)
    (hk : k < n.toNat) : s.entryAt .px k = some (s.operand .px .zeroCheck k) := by
  obtain ⟨x, hx⟩ := Option.ne_none_iff_exists'.1 (hpx n rfl hn k hk)
  rw [hx, operand_of_entryAt .zeroCheck hx]

/-- A cause leads to fault entry with its code, and nothing else changes. -/
theorem exec_of_faultCause {i : Instr} {s : State} {c : FaultCode} (hpx : PointsWritten i s) (h : FaultCause s i c) :
    exec i s = .next (takeFault c s) := by
  obtain ⟨heval, hinterp, halog, -⟩ := rangeChecksRaiseTheirFaults s
  cases h with
  | evalLength hn => exact heval _ _ hn
  | interpLength hn => exact hinterp _ hn
  | romIndex hk => exact halog _ hk
  | zeroDivisor => exact divByZeroRaisesDivZero _ _
  | zeroX hn hk h0 => exact exec_interp_of_zero hn (hpx.entryAt_px hn) hk (operand_of_entryAt _ h0)
  | repeatedX hn hne hjk hk heq =>
    have hx := hpx.entryAt_px hn
    refine exec_interp_of_repeat hn hx (fun k hk h0 => hne k hk (by rw [hx k hk, h0])) hjk hk ?_
    exact Option.some.inj (by rw [← hx _ (hjk.trans hk), ← hx _ hk, heq])

/-- INTERP on a legal count over written points faults for an x of 0 or a repeated x alone (44_interp.md R131, R132). -/
theorem exists_faultCause_of_interp {n : Count} {s : State} {c : FaultCode} (hn : n.toNat ≤ 256)
    (hpx : PointsWritten (.interp n) s) (h : interpResult n s = .fault c) : ∃ e, FaultCause s (.interp n) e := by
  by_cases hzero : ∃ k, k < n.toNat ∧ s.entryAt .px k = some 0
  · obtain ⟨k, hk, h0⟩ := hzero
    exact ⟨_, .zeroX hn hk h0⟩
  by_cases hrepeat : ∃ j k, j < k ∧ k < n.toNat ∧ s.entryAt .px j = s.entryAt .px k
  · obtain ⟨j, k, hjk, hk, heq⟩ := hrepeat
    exact ⟨_, .repeatedX hn (fun k hk h0 => hzero ⟨k, hk, h0⟩) hjk hk heq⟩
  have hx := hpx.entryAt_px hn
  have hproper : ProperPoints n.toNat (s.operand .px .zeroCheck) :=
    ⟨fun k hk h0 => hzero ⟨k, hk, by rw [hx k hk, h0]⟩,
      fun k hk j hjk heq => hrepeat ⟨j, k, hjk, hk, by rw [hx j (hjk.trans hk), hx k hk, heq]⟩⟩
  obtain ⟨-, -, v, hv⟩ := lagrangeZero_ok (s.operand .py .weight)
    (fun site k hk => operand_of_entryAt site (hx k hk)) hproper
  rw [interpResult_of_le hn, hv] at h
  cases h

/-- A command that returns a fault has a cause. -/
theorem exists_faultCause_of_executed {i : Instr} {s : State} {c : FaultCode} (hpx : PointsWritten i s)
    (h : executed s i = .fault c) : ∃ e, FaultCause s i e := by
  cases i with
  | div a b =>
    by_cases hb : b = 0
    · subst hb
      exact ⟨_, .zeroDivisor⟩
    · rw [executed, gfDiv_of_ne a hb] at h
      cases h
  | alog k =>
    rcases lt_or_ge 509 k.toNat with hk | hk
    · exact ⟨_, .romIndex hk⟩
    · rw [executed, alogResult_of_lt (Nat.lt_succ_of_le hk)] at h
      cases h
  | eval x n =>
    rcases lt_or_ge 256 n.toNat with hn | hn
    · exact ⟨_, .evalLength hn⟩
    · rw [executed, evalResult_of_le hn] at h
      cases h
  | interp n =>
    rcases lt_or_ge 256 n.toNat with hn | hn
    · exact ⟨_, .interpLength hn⟩
    · exact exists_faultCause_of_interp hn hpx h
  | _ => cases h

/-- From a state that shows no fault, a command reports a code exactly when it has that code's cause (60_exceptions.md
R143). -/
theorem fcode_eq_some_iff {i : Instr} {s t : State} (hs : s.fcode = none) (hpx : PointsWritten i s)
    (hexec : exec i s = .next t) (c : FaultCode) : t.fcode = some c ↔ FaultCause s i c := by
  have hraised : ∀ e, FaultCause s i e → t.fcode = some e := fun e he => by
    rw [Host.Outcome.next.inj (hexec.symm.trans (exec_of_faultCause hpx he)), takeFault_fcode]
  refine ⟨fun hc => ?_, hraised c⟩
  obtain ⟨m, hm, heff⟩ := exec_returns i s
  obtain rfl : complete (executed s i) m = t := Host.Outcome.next.inj (hm.symm.trans hexec)
  obtain ⟨-, hfcode⟩ | ⟨_, hfault, -, -⟩ := complete_fault_cases (executed s i) m
  · obtain ⟨_, _, _, _, _, rfl⟩ := heff.frame
    exact absurd (hc.symm.trans (hfcode.trans hs)) (Option.some_ne_none c)
  · obtain ⟨e, he⟩ := exists_faultCause_of_executed hpx hfault
    obtain rfl : c = e := Option.some.inj (hc.symm.trans (hraised e he))
    exact he

section Causes

variable {s : State} {i : Instr}

theorem not_faultCause_illegalCmd : ¬FaultCause s i .illegalCmd := nofun

theorem faultCause_badLen_iff : FaultCause s i .badLen ↔
    (∃ x n, i = .eval x n ∧ 256 < n.toNat) ∨ ∃ n, i = .interp n ∧ 256 < n.toNat := by
  constructor
  · intro h
    cases h with
    | evalLength hn => exact .inl ⟨_, _, rfl, hn⟩
    | interpLength hn => exact .inr ⟨_, rfl, hn⟩
  · rintro (⟨x, n, rfl, hn⟩ | ⟨n, rfl, hn⟩)
    · exact .evalLength hn
    · exact .interpLength hn

theorem faultCause_romRange_iff : FaultCause s i .romRange ↔ ∃ k, i = .alog k ∧ 509 < k.toNat := by
  constructor
  · intro h
    cases h with
    | romIndex hk => exact ⟨_, rfl, hk⟩
  · rintro ⟨k, rfl, hk⟩
    exact .romIndex hk

theorem faultCause_xZero_iff : FaultCause s i .xZero ↔
    ∃ n, i = .interp n ∧ n.toNat ≤ 256 ∧ ∃ k, k < n.toNat ∧ s.entryAt .px k = some 0 := by
  constructor
  · intro h
    cases h with
    | zeroX hn hk h0 => exact ⟨_, rfl, hn, _, hk, h0⟩
  · rintro ⟨n, rfl, hn, k, hk, h0⟩
    exact .zeroX hn hk h0

theorem faultCause_divZero_iff : FaultCause s i .divZero ↔ (∃ a, i = .div a 0) ∨
    ∃ n, i = .interp n ∧ n.toNat ≤ 256 ∧ (∀ k, k < n.toNat → s.entryAt .px k ≠ some 0) ∧
      ∃ j k, j < k ∧ k < n.toNat ∧ s.entryAt .px j = s.entryAt .px k := by
  constructor
  · intro h
    cases h with
    | zeroDivisor => exact .inl ⟨_, rfl⟩
    | repeatedX hn hne hjk hk heq => exact .inr ⟨_, rfl, hn, hne, _, _, hjk, hk, heq⟩
  · rintro (⟨a, rfl⟩ | ⟨n, rfl, hn, hne, j, k, hjk, hk, heq⟩)
    · exact .zeroDivisor
    · exact .repeatedX hn hne hjk hk heq

end Causes

/-- Settles O36: each code is reported for its cause, and no cause of a decoded command raises ILLEGAL_CMD. -/
theorem faultCausesInPriorityOrder : Obligations.FaultCausesInPriorityOrder := by
  intro i s t hs hpx hexec
  have hcode : ∀ c, t.fcode = some c ↔ FaultCause s i c := fcode_eq_some_iff hs hpx hexec
  exact ⟨fun h => not_faultCause_illegalCmd ((hcode _).1 h), (hcode _).trans faultCause_badLen_iff,
    (hcode _).trans faultCause_romRange_iff, (hcode _).trans faultCause_xZero_iff, (hcode _).trans faultCause_divZero_iff⟩

end Sys2Proof.Machine

/-! PROOFS. Runs: a fault stays and blocks every command until CLRF or reset (60_exceptions.md R145), and the ghost record
keeps every fault (R151). -/

namespace Sys2Proof.Machine

/-- A turn comes from the agenda, or is the block's when the agenda is used up (log entry 9). -/
theorem nextTurn_eq_block_or_mem (s : State) : s.nextTurn = .block ∨ s.nextTurn ∈ s.agenda := by
  rw [State.nextTurn]
  cases s.agenda with
  | nil => exact .inl rfl
  | cons u us => exact .inr List.mem_cons_self

/-- A turn that neither resets the block nor writes CTRL with bit 0 = 1 (10_state.md R33). -/
def Turn.KeepsFault (u : Turn) : Prop :=
  u ≠ .reset ∧ ∀ a v, u = .host a → a.transfer = .write v → a.target = some .ctrl → v.getLsbD 0 = false

/-- A faulted idle block changes at no such turn: the host's reads see it, and its CMD writes are discarded (60_exceptions.md
R145). -/
theorem eq_of_changed_faulted {s t : State} (hf : s.fault = true) (hb : s.busy = false)
    (hkeeps : s.nextTurn = .block ∨ s.nextTurn.KeepsFault) (hc : Changed s t) :
    ∃ l d, t = { s.popTurn with lastRead := l, draws := d } := by
  cases hc with
  | quiet l d _ h => exact ⟨l, d, h⟩
  | accepted _ _ _ _ _ hnofault => simp [hf] at hnofault
  | overrun _ _ _ _ _ hnofault => simp [hf] at hnofault
  | completed _ _ _ hbusy => simp [hb] at hbusy
  | cleared a v ht hr hk hv =>
    obtain ⟨-, hctrl⟩ := hkeeps.resolve_left (by simp [ht])
    exact absurd ((hctrl a v ht hk hr).symm.trans hv) Bool.false_ne_true
  | reset ht =>
    obtain ⟨hreset, -⟩ := hkeeps.resolve_left (by simp [ht])
    exact absurd ht hreset

/-- So it is through a run of such turns. -/
theorem eq_of_reaches_faulted {k : Nat} {s t : State} (hf : s.fault = true) (hb : s.busy = false)
    (hkeeps : ∀ u ∈ s.agenda, u.KeepsFault) (hreach : Reaches k s t) :
    ∃ a l d, t = { s with agenda := a, lastRead := l, draws := d } := by
  induction k generalizing s with
  | zero =>
    obtain rfl : s = t := hreach
    exact ⟨_, _, _, rfl⟩
  | succ k ih =>
    obtain ⟨m, hstep, hreach⟩ := hreach
    obtain ⟨l, d, rfl⟩ :=
      eq_of_changed_faulted hf hb ((nextTurn_eq_block_or_mem s).imp_right (hkeeps _)) (step_changed hstep)
    exact ih (s := { s.popTurn with lastRead := l, draws := d }) hf hb (fun u hu => hkeeps u (List.mem_of_mem_tail hu))
      hreach

/-- Settles O45: only the agenda, the host's last read value and the counter of free values differ at the end of the run. -/
theorem faultBlocksEveryCommand : Obligations.FaultBlocksEveryCommand := by
  intro k s t hf hb hkeeps hreach
  obtain ⟨a, l, d, rfl⟩ := eq_of_reaches_faulted hf hb hkeeps hreach
  exact ⟨hf, rfl, hb, rfl, rfl, rfl, rfl, fun b _ => by cases b <;> rfl⟩

/-- A command in flight only adds to the ghost record before its completion, and leaves the turns to come. -/
theorem Prepared.record_agenda {s m : State} {r : Result} (hm : Prepared s r m) :
    s.record <+: m.record ∧ m.agenda = s.agenda.tail := by
  obtain rfl | ⟨i, -, he⟩ := hm
  · exact ⟨List.prefix_rfl, rfl⟩
  · obtain ⟨_, _, _, _, _, rfl⟩ := he.frame
    exact ⟨List.prefix_append _ _, rfl⟩

/-- Apart from reset the ghost record only grows (60_exceptions.md R151), and each step takes one turn off the agenda. -/
theorem record_agenda_of_changed {s t : State} (hc : Changed s t) (hreset : s.nextTurn ≠ .reset) :
    s.record <+: t.record ∧ t.agenda = s.agenda.tail := by
  cases hc with
  | quiet _ _ _ h => subst h; exact ⟨List.prefix_rfl, rfl⟩
  | accepted _ _ _ _ _ _ _ h => subst h; exact ⟨List.prefix_rfl, rfl⟩
  | overrun _ _ _ _ _ _ _ h => subst h; exact ⟨List.prefix_rfl, rfl⟩
  | cleared _ _ _ _ _ _ h => subst h; exact ⟨List.prefix_rfl, rfl⟩
  | reset ht _ => exact absurd ht hreset
  | completed r m _ _ hm h =>
    subst h
    obtain ⟨hrecord, hagenda⟩ := hm.record_agenda
    exact ⟨hrecord.trans (record_prefix_complete r m), (complete_agenda r m).trans hagenda⟩

/-- Through a run without a reset the invariant holds on, and the ghost record only grows. -/
theorem inv_record_of_reaches {k : Nat} {s t : State} (hs : s.Inv) (hreset : Turn.reset ∉ s.agenda)
    (hreach : Reaches k s t) : t.Inv ∧ s.record <+: t.record := by
  induction k generalizing s with
  | zero =>
    obtain rfl : s = t := hreach
    exact ⟨hs, List.prefix_rfl⟩
  | succ k ih =>
    obtain ⟨m, hstep, hreach⟩ := hreach
    have hturn : s.nextTurn ≠ .reset := fun ht => by
      obtain h | h := nextTurn_eq_block_or_mem s
      · simp [ht] at h
      · exact hreset (ht ▸ h)
    obtain ⟨hrecord, hagenda⟩ := record_agenda_of_changed (step_changed hstep) hturn
    have hm : Turn.reset ∉ m.agenda := fun h => hreset (List.mem_of_mem_tail (hagenda ▸ h))
    obtain ⟨ht, hgrows⟩ := ih (everyStepKeepsTheInvariant s m hs hstep) hm hreach
    exact ⟨ht, hrecord.trans hgrows⟩

/-- A record without a fault is that of a block that shows none (60_exceptions.md R151). -/
theorem State.Inv.fault_of_noCommandFaulted {s : State} (hs : s.Inv) (h : s.NoCommandFaulted) : s.fault = false := by
  rw [hs.fault_fcode]
  cases hc : s.fcode with
  | none => rfl
  | some c => exact absurd (hs.fault_recorded c hc) (h c)

/-- Settles O50: the invariant ties what STATUS shows to the record, and the record keeps what it had at the start. -/
theorem ghostRecordKeepsEveryFault : Obligations.GhostRecordKeepsEveryFault := by
  intro k s t hs hreset hreach
  obtain ⟨ht, hrecord⟩ := inv_record_of_reaches hs hreset hreach
  refine ⟨hrecord, ht.fault_recorded, fun hnone => ⟨?_, ht.fault_of_noCommandFaulted hnone⟩⟩
  exact hs.fault_of_noCommandFaulted fun c hc => hnone c (hrecord.subset hc)

end Sys2Proof.Machine

/-! PROOFS. An accepted command completes at the block's turn or is abandoned by a reset (70_reset_and_hazards.md R178), and
the values reset leaves (R170). -/

namespace Sys2Proof.Machine

/-- The block's turn with a word in flight that is no command raises ILLEGAL_CMD (60_exceptions.md R141). -/
theorem step_of_block_rejected {s : State} {e : Reject} (ht : s.nextTurn = .block) (hb : s.busy = true)
    (hdecode : decode s.cur = .error e) : step s = .next (takeFault .illegalCmd s.popTurn) := by
  simp [step_of_block ht, blockTurn, completeCurrent, hb, hdecode]

/-- The block's turn completes the command in flight, whatever its word (10_state.md R35). -/
theorem exists_step_of_block_in_flight {s : State} (ht : s.nextTurn = .block) (hb : s.busy = true) :
    ∃ t, step s = .next t ∧ t.busy = false ∧ (∀ i, decode s.cur = .ok i → exec i s.popTurn = .next t) ∧
      ((∀ i, decode s.cur ≠ .ok i) → t = takeFault .illegalCmd s.popTurn) := by
  cases hd : decode s.cur with
  | ok i =>
    obtain ⟨r, m, hexec, -⟩ := exec_shape i s.popTurn
    refine ⟨complete r m, (step_of_block_decoded ht hb hd).trans hexec, complete_busy r m, fun j hj => ?_,
      fun hnone => absurd rfl (hnone i)⟩
    obtain rfl : i = j := Except.ok.inj hj
    exact hexec
  | error e =>
    exact ⟨takeFault .illegalCmd s.popTurn, step_of_block_rejected ht hb hd, takeFault_busy .., nofun, fun _ => rfl⟩

/-- Host accesses that are not refused all answer a next state, and a command in flight is still there after them
(20_memory.md R48, its fourth rule). -/
theorem exists_reaches_of_hosts {hosts : List Access} {rest : List Turn} {s : State} (hb : s.busy = true)
    (hagenda : s.agenda = hosts.map Turn.host ++ rest) (hserved : ∀ a ∈ hosts, a.target ≠ none ∨ a.touchesWindow = false) :
    ∃ m, Reaches hosts.length s m ∧ m.busy = true ∧ m.cur = s.cur ∧ m.result = s.result ∧ m.agenda = rest ∧
      ∀ b i, m.entryAt b i = s.entryAt b i := by
  induction hosts generalizing s with
  | nil => exact ⟨s, rfl, hb, rfl, rfl, hagenda, fun _ _ => rfl⟩
  | cons a hosts ih =>
    obtain ⟨hserveda, hserved⟩ := List.forall_mem_cons.1 hserved
    have ht : s.nextTurn = .host a := by rw [State.nextTurn, hagenda]; rfl
    obtain ⟨n, hstep, hnb, hncur, hnresult, hnagenda, hnentries⟩ :=
      hostAccess_in_flight (s := s.popTurn) hb hserveda
    have hrest : n.agenda = hosts.map Turn.host ++ rest := by rw [hnagenda, popTurn_agenda, hagenda]; rfl
    obtain ⟨m, hreach, hmb, hmcur, hmresult, hmagenda, hmentries⟩ := ih hnb hrest hserved
    refine ⟨m, ⟨n, (step_of_host ht).trans hstep, hreach⟩, hmb, hmcur.trans hncur, hmresult.trans hnresult, hmagenda,
      fun b i => ?_⟩
    rw [hmentries, hnentries, entryAt_popTurn]

/-- Settles O44: the accesses leave the command in flight, and the turn after them completes or abandons it. -/
theorem acceptedCommandCompletes : Obligations.AcceptedCommandCompletes := by
  intro hosts rest s hb hagenda hserved
  obtain ⟨m, hreach, hmb, hcur, hresult, rfl, hentries⟩ := exists_reaches_of_hosts hb hagenda hserved
  refine ⟨m, hreach, hmb, hcur, hresult, rfl, hentries, fun hblock => ?_, fun hreset => ?_⟩
  · obtain ⟨t, hstep, htb, hok, hillegal⟩ := exists_step_of_block_in_flight hblock hmb
    rw [hcur] at hok hillegal
    exact ⟨t, hstep, htb, hok, hillegal⟩
  · exact ⟨_, step_of_reset hreset, resetBlock_busy _, resetBlock_fault _, resetBlock_result _, entryAt_resetBlock _⟩

@[simp] theorem resultWord_resetBlock (s : State) : (resetBlock s).resultWord = 0x00000000 := rfl

theorem statusWord_reset : State.reset.statusWord = 0x00000000 := by decide

/-- STATUS is read off flags that a reset gives the values of the reset state (10_state.md R29). -/
@[simp] theorem statusWord_resetBlock (s : State) : (resetBlock s).statusWord = 0x00000000 := statusWord_reset

/-- A reset of the reset state changes nothing, so what holds after every reset holds of it. -/
theorem resetBlock_reset : resetBlock State.reset = State.reset := rfl

/-- Settles O1: the reset state is itself what a reset leaves, and a reset's turn is answered in every state. -/
theorem resetLeavesTheSpecValues : Obligations.ResetLeavesTheSpecValues := by
  refine ⟨?_, fun s ht => ?_⟩
  · rw [← resetBlock_reset]
    exact ⟨resultWord_resetBlock _, statusWord_resetBlock _, entryAt_resetBlock _⟩
  · exact ⟨_, step_of_reset ht, resultWord_resetBlock _, statusWord_resetBlock _, entryAt_resetBlock _,
      resetBlock_record _, resetBlock_agenda _⟩

/-- Settles O51: every reset leaves a state that meets the invariant, and the reset state is one of them. -/
theorem invariantHoldsAtReset : Obligations.InvariantHoldsAtReset := by
  have h : (resetBlock State.reset).Inv := .resetBlock
  rwa [resetBlock_reset] at h

end Sys2Proof.Machine
